-- ==== Sys2Proof/Word.lean ====
section
/-! DEFINITION. The widths of the block's values (00_scope.md R7, R8; 10_state.md R17, R24, R25; 30_encoding.md R50). -/

namespace Sys2Proof

/-- One byte: a symbol code, a string element, a header or status byte (10_state.md R15, 20_memory.md R36). -/
abbrev Byte := BitVec 8

/-- A 64-bit unsigned value: `VALUE`, `REM`, an entry of `POW` or `THR` (00_scope.md R7, 10_state.md R18). -/
abbrev Word := BitVec 64

/-- A digit register, 6 bits (10_state.md R24). -/
abbrev Digit := BitVec 6

/-- The weighted-sum accumulator, 70 bits (10_state.md R25, 41_decode.md R90). -/
abbrev Acc := BitVec 70

/-- The position register, 4 bits (10_state.md R24). -/
abbrev Pos := BitVec 4

/-- An entry of `VAL`: bit 6 is the valid bit, bits 5:0 the digit, zero when invalid (10_state.md R17). -/
abbrev ValEntry := BitVec 7

end Sys2Proof
end

