-- ==== Sys2Proof/Config.lean ====
section
/-! DEFINITION. What is fixed for one block: the constants of 00_scope.md R7, the parameters of R8 with the
defaults the model takes for them, and the free values of what the spec leaves unspecified. -/

namespace Sys2Proof.Config

/-- `RADIX` (00_scope.md R7). -/
def radix : Nat := 56

/-- `MAX64 = 2^64 - 1` in the accumulator's width (00_scope.md R9). -/
def max64 : Acc := 0xFFFFFFFFFFFFFFFF#70

/-- `DELIM`, the character "-" (00_scope.md R7), code 0x2D (40_encode.md R78).
PRESUMED (K2 of 93_implementation_defined.md), log 15, unsafe. -/
def delim : Byte := 0x2D#8

/-- `ZERO_SYM`, the character "0" (00_scope.md R7), code 0x30 (10_state.md R15).
PRESUMED (K1 of 93_implementation_defined.md), log 15, unsafe. -/
def zeroSym : Byte := 0x30#8

/-- An alphabet: the 56 symbol codes in digit order (10_state.md R15). A parameter of the model (00_scope.md R8). -/
abbrev Alphabet := Vector Byte 56

/-- The default alphabet `A0` of 10_state.md R15, in ASCII codes: the digits, then the lowercase letters without
i, l, o, then the uppercase letters without I, L, O. DESIGN CHOICE (D3 of the spec), log 3, unsafe: the
repository's own alphabet is unknown. -/
def alphabetA0 : Alphabet :=
  #v[0x30#8, 0x31#8, 0x32#8, 0x33#8, 0x34#8, 0x35#8, 0x36#8, 0x37#8, 0x38#8, 0x39#8,
     0x61#8, 0x62#8, 0x63#8, 0x64#8, 0x65#8, 0x66#8, 0x67#8, 0x68#8, 0x6A#8, 0x6B#8,
     0x6D#8, 0x6E#8, 0x70#8, 0x71#8, 0x72#8, 0x73#8, 0x74#8, 0x75#8, 0x76#8, 0x77#8,
     0x78#8, 0x79#8, 0x7A#8,
     0x41#8, 0x42#8, 0x43#8, 0x44#8, 0x45#8, 0x46#8, 0x47#8, 0x48#8, 0x4A#8, 0x4B#8,
     0x4D#8, 0x4E#8, 0x50#8, 0x51#8, 0x52#8, 0x53#8, 0x54#8, 0x55#8, 0x56#8, 0x57#8,
     0x58#8, 0x59#8, 0x5A#8]

/-- The string capacities `PFX_MAX` and `IN_MAX`, OPEN parameters (00_scope.md R8, 20_memory.md R36); `none` is the
document's own view, strings without a bound (D14). -/
structure Caps where
  pfxMax : Option Nat
  inMax : Option Nat
  deriving DecidableEq, Repr

/-- No bound on either string. DESIGN CHOICE (D14 allows it: "the bounds then never bite"), log 4, unsafe. -/
def capsUnbounded : Caps := { pfxMax := none, inMax := none }

/-- `POW[p] = 56^p`, an exact integer (10_state.md R18). -/
def powTable : Vector Word 12 := Vector.ofFn fun p => BitVec.ofNat 64 (radix ^ p.val)

/-- `THR[p][m] = m * 56^p` for p = 0..10 and m = 0..55, exact integers (10_state.md R19). -/
def thrTable : Vector (Vector Word 56) 11 :=
  Vector.ofFn fun p => Vector.ofFn fun m => BitVec.ofNat 64 (m.val * radix ^ p.val)

/-- `THR[11][0] = 0` and `THR[11][1] = 56^11`; position 11 has no other threshold (10_state.md R19). -/
def thrTopTable : Vector Word 2 := Vector.ofFn fun m => BitVec.ofNat 64 (m.val * radix ^ 11)

/-- What `REM` holds between transactions: unspecified (10_state.md R31, U7). A free value, log 7, safe. -/
opaque freeRem : Nat → Word
/-- What `DIG[0..11]` hold between transactions: unspecified (10_state.md R31, U7). A free value, log 7, safe. -/
opaque freeDig : Nat → Vector Digit 12
/-- What `POS` holds between transactions: unspecified (10_state.md R31, U7). A free value, log 7, safe. -/
opaque freePos : Nat → Pos
/-- What `ACC` holds between transactions: unspecified (10_state.md R31, U7). A free value, log 7, safe. -/
opaque freeAcc : Nat → Acc
/-- What `INV` holds between transactions: unspecified (10_state.md R31, U7). A free value, log 7, safe. -/
opaque freeInv : Nat → Bool
/-- What `OVF` holds between transactions: unspecified (10_state.md R31, U7). A free value, log 7, safe. -/
opaque freeOvf : Nat → Bool
/-- What `NODELIM` holds between transactions: unspecified (10_state.md R31, U7). A free value, log 7, safe. -/
opaque freeNodelim : Nat → Bool

end Sys2Proof.Config
end

