-- ==== Sys2Proof/Syntax.lean ====
section
/-! DEFINITION. The request record (30_encoding.md R49) and the four operations with the operands each uses (R58). -/

namespace Sys2Proof

/-- The request record `REQ` (10_state.md R22, 30_encoding.md R49): the header byte, the 64-bit value and the string.
`LEN` is the length of `str` (R54: "`STR` is `LEN` bytes"). How a bus carries the record is the platform's
(20_memory.md R41). -/
structure Request where
  hdr : Byte
  value : Word
  str : List Byte
  deriving DecidableEq, Repr

/-- `LEN` of a request (30_encoding.md R54). -/
def Request.len (r : Request) : Nat := r.str.length

/-- The four operations of `opcode_table.json` (30_encoding.md R51), each with the fields of the request it uses
(R58). `encp` keeps the don't-care bit `PAD` (R60), so that both its header bytes have an instruction. -/
inductive Instr where
  /-- `ENC value, pad` (40_encode.md R73). -/
  | enc (pad : Bool) (value : Word)
  /-- `ENCP value, "prefix"` (40_encode.md R78). -/
  | encp (pad : Bool) (value : Word) (pfx : List Byte)
  /-- `DEC "string"` (41_decode.md R92). -/
  | dec (str : List Byte)
  /-- `DECP "string"` (41_decode.md R96). -/
  | decp (str : List Byte)
  deriving DecidableEq, Repr

end Sys2Proof
end

