-- ==== Sys2Proof/Decode.lean ====
section
/-! DEFINITION. The header byte's fields, the opcode map as match and mask, the decoder of a request record and its
encoder (30_encoding.md R50 to R63). -/

namespace Sys2Proof

/-- `HDR[1:0]`, the operation select (30_encoding.md R50). -/
def hdrOp (h : Byte) : BitVec 2 := h.extractLsb' 0 2

/-- `HDR[2]`, the padding flag (30_encoding.md R50, R52). -/
def hdrPad (h : Byte) : Bool := h.getLsbD 2

/-- `HDR[7:3]`, reserved (30_encoding.md R50). -/
def hdrRsv (h : Byte) : BitVec 5 := h.extractLsb' 3 5

/-- A header byte from its three fields, `RSV ++ PAD ++ OP` (30_encoding.md R50). -/
def mkHdr (pad : Bool) (op : BitVec 2) : Byte := (0#5 ++ BitVec.ofBool pad) ++ op

/-- A header byte selects a row of the opcode map when `h AND mask = match` (30_encoding.md R58). -/
def selects (h mask pat : Byte) : Bool := h &&& mask == pat

/-- Why a request has no operation (30_encoding.md R59). -/
inductive DecodeError where
  /-- `HDR[7:3] != 0`, or `DEC`/`DECP` with `PAD = 1`; carries the byte. -/
  | illegalHeader (hdr : Byte)
  deriving DecidableEq, Repr

/-- The operation a request selects, with the fields that operation uses (30_encoding.md R58, R61); total over all 256
header bytes, refusing `0x06..0xFF` by name (R59, R63). -/
def decode (r : Request) : Except DecodeError Instr :=
  if selects r.hdr 0xFB#8 0x00#8 then .ok (.enc (hdrPad r.hdr) r.value)
  else if selects r.hdr 0xFB#8 0x01#8 then .ok (.encp (hdrPad r.hdr) r.value r.str)
  else if selects r.hdr 0xFF#8 0x02#8 then .ok (.dec r.str)
  else if selects r.hdr 0xFF#8 0x03#8 then .ok (.decp r.str)
  else .error (.illegalHeader r.hdr)

/-- The request record of an instruction, its unused fields zero and empty (30_encoding.md R51, R58, R61). -/
def encode (i : Instr) : Request :=
  match i with
  | .enc pad v => { hdr := mkHdr pad 0b00#2, value := v, str := [] }
  | .encp pad v pfx => { hdr := mkHdr pad 0b01#2, value := v, str := pfx }
  | .dec s => { hdr := mkHdr false 0b10#2, value := 0#64, str := s }
  | .decp s => { hdr := mkHdr false 0b11#2, value := 0#64, str := s }

/-- The request whose bits are `w`, numbered as `opcode_table.json` numbers them: bits 7..0 are `HDR`, and the bits above
are `VALUE` (only 8 bits are in the table, so `VALUE = 0` there); `LEN = 0` and `STR` empty. Bits 72 and
above of a placed word, which no row of the table has, are ignored: no request has a wider operand (00_scope.md R5).
DESIGN CHOICE, log 2, safe. -/
def requestOfBits (nbits w : Nat) : Request :=
  let b := w % 2 ^ nbits
  { hdr := BitVec.ofNat 8 b, value := BitVec.ofNat 64 (b / 2 ^ 8), str := [] }

/-- What the decoder reads from an opcode-table word. -/
def decodeTableWord (nbits w : Nat) : Option Instr :=
  match decode (requestOfBits nbits w) with
  | .ok i => some i
  | .error _ => none

end Sys2Proof
end

