-- ==== Sys2Proof/Machine/State.lean ====
section
/-! DEFINITION. The block's state (10_state.md R14 to R31), the ways a step can stop, and the state after reset. -/

namespace Sys2Proof.Machine

/-- The constant tables (10_state.md R14(a)). `thr` is `THR[0..10][0..55]`, `thrTop` is `THR[11][0..1]`; no other
threshold of position 11 exists (R19). There is no other memory (20_memory.md R32): DEDUCED, log 17, safe. -/
structure Tables where
  sym : Config.Alphabet
  val : Vector ValEntry 256
  pow : Vector Word 12
  thr : Vector (Vector Word 56) 11
  thrTop : Vector Word 2
  deriving DecidableEq, Repr

/-- The datapath registers, transaction-local (10_state.md R24, R25). -/
structure Datapath where
  rem : Word
  dig : Vector Digit 12
  pos : Pos
  acc : Acc
  inv : Bool
  ovf : Bool
  nodelim : Bool
  deriving DecidableEq, Repr

/-- The three errors of the block, values of a response (60_exceptions.md R101); a closed enumeration. -/
inductive CodecError where
  | invalidSymbol
  | malformedInput
  | overflow
  deriving DecidableEq, Repr

/-- The response record `RSP` as the sum of 10_state.md R23: a field an operation does not produce, and every value field
of an error, holds no value and cannot be read (60_exceptions.md R109). -/
inductive Response where
  /-- `ok(string)`: `ENC`, `ENCP`. -/
  | okString (str : List Byte)
  /-- `ok(value)`: `DEC`, `DECP`. -/
  | okValue (value : Word)
  /-- `err(code)`: `DEC`, `DECP`. -/
  | err (e : CodecError)
  deriving DecidableEq, Repr

/-- Why the machine stops with a fault. -/
inductive Fault where
  /-- Raised by the symbol emission of `ENC` and `ENCP` when a digit register names an address of `SYM` outside 0..55,
  which the spec says does not exist (20_memory.md R33). No step raises it (R48). Safe: it stops the model. DEDUCED, log 14. -/
  | symAddress
  deriving DecidableEq, Repr

/-- Why a request has no step (60_exceptions.md R113). -/
inductive Refusal where
  /-- Raised by an arm of `exec` that has no meaning yet. Safe: it stops the model. -/
  | notModelled (mnemonic : String)
  /-- `IllegalHeader`: raised by `step` when the oldest request's header selects no operation (30_encoding.md R59).
  Safe: it stops the model. -/
  | illegalHeader (hdr : Byte)
  /-- `DelimiterInPrefix`: raised by `ENCP` when its prefix holds the delimiter (40_encode.md R80). Safe: it stops the
  model. -/
  | delimiterInPrefix
  /-- `StringTooLong`: raised by `ENCP` when `LEN > PFX_MAX` and by `DEC`, `DECP` when `LEN > IN_MAX` (20_memory.md R36).
  Safe: it stops the model. -/
  | stringTooLong
  deriving DecidableEq, Repr

/-- The block (10_state.md R14). `pending` holds the requests presented and not yet taken, `responses` the responses
delivered and not yet taken by the host, both oldest first. `caps` are the parameters `PFX_MAX` and `IN_MAX`. `draws` is
the model's own: how many transactions have been served, the argument of the free values (log 7). -/
structure State where
  tables : Tables
  caps : Config.Caps
  ready : Bool
  pending : List Request
  responses : List Response
  dp : Datapath
  draws : Nat
  deriving DecidableEq, Repr

/-- The tables right after reset: `SYM`, `POW`, `THR` at their constants (10_state.md R31); `VAL` is unspecified there,
and the model names 0, every entry invalid. DESIGN CHOICE, log 5, unsafe. -/
def Tables.reset (a : Config.Alphabet) : Tables :=
  { sym := a
    val := Vector.replicate 256 0#7
    pow := Config.powTable
    thr := Config.thrTable
    thrTop := Config.thrTopTable }

/-- The datapath registers right after reset: unspecified (10_state.md R31), and the model names 0. DESIGN CHOICE,
log 6, unsafe. -/
def Datapath.reset : Datapath :=
  { rem := 0#64
    dig := Vector.replicate 12 0#6
    pos := 0#4
    acc := 0#70
    inv := false
    ovf := false
    nodelim := false }

/-- The block with alphabet `a` and capacities `c` right after reset (10_state.md R31, 70_reset_and_hazards.md R116). -/
def State.resetWith (a : Config.Alphabet) (c : Config.Caps) : State :=
  { tables := Tables.reset a
    caps := c
    ready := false
    pending := []
    responses := []
    dp := Datapath.reset
    draws := 0 }

/-- The block right after reset, with the default alphabet (log 3) and strings without a bound (log 4). -/
def State.reset : State := State.resetWith Config.alphabetA0 Config.capsUnbounded

end Sys2Proof.Machine
end

