-- ==== Sys2Proof/Machine/Ops.lean ====
section
/-! DEFINITION. The named operations every operation shares: the table reads (20_memory.md R33 to R35), the initialisation
step (70_reset_and_hazards.md R117), the hold (R119) and the end of a transaction (30_encoding.md R56). The block takes no
exception and returns from none: an error is the value of a response (60_exceptions.md R106, R111), so a response is
delivered by the one operation `State.complete` whether it is a success or an error. -/

namespace Sys2Proof.Machine

/-- `MemRead(SYM, d, 1)`; `none` where the address does not exist, `d > 55` (20_memory.md R33): DEDUCED,
log 14, safe. -/
def Tables.readSym (t : Tables) (d : Digit) : Option Byte := t.sym[d.toNat]?

/-- `MemRead(VAL, c, 1)`; every code 0..255 has an entry (20_memory.md R34). -/
def Tables.readVal (t : Tables) (c : Byte) : ValEntry := t.val[c.toNat]'c.isLt

/-- `MemRead(POW, p, 1)`, for the twelve positions (20_memory.md R35). -/
def Tables.readPow (t : Tables) (p : Fin 12) : Word := t.pow[p.val]

/-- `MemRead(THR, (p, m), 1)`; `none` where the threshold does not exist: `m > 55`, and `m > 1` at position 11
(10_state.md R19, 20_memory.md R35). The first of the two is read from R19's range: DEDUCED, log 14, safe. -/
def Tables.readThr (t : Tables) (p : Fin 12) (m : Nat) : Option Word :=
  if h : p.val < 11 then (t.thr[p.val])[m]? else t.thrTop[m]?

/-- The entry `valid(d)`: bit 6 set, the digit in bits 5:0 (10_state.md R17). -/
def validEntry (d : Digit) : ValEntry := 1#1 ++ d

/-- The entry `invalid`: all bits zero (10_state.md R17). -/
def invalidEntry : ValEntry := 0#7

/-- The valid bit of an entry (10_state.md R17). -/
def entryValid (e : ValEntry) : Bool := e.getLsbD 6

/-- Bits 5:0 of an entry, its digit (10_state.md R17). -/
def entryDigit (e : ValEntry) : Digit := e.extractLsb' 0 6

/-- `MemWrite(VAL, c, 1, e)`, the initialiser's alone (20_memory.md R32). -/
def writeVal (v : Vector ValEntry 256) (c : Byte) (e : ValEntry) : Vector ValEntry 256 := v.set c.toNat e c.isLt

/-- The table the initialisation step builds from `SYM`: every entry `invalid`, then `valid(d)` at `SYM[d]` for d = 0..55
in that order (70_reset_and_hazards.md R117). -/
def buildVal (a : Config.Alphabet) : Vector ValEntry 256 :=
  (List.finRange 56).foldl (fun v d => writeVal v a[d.val] (validEntry (BitVec.ofNat 6 d.val)))
    (Vector.replicate 256 invalidEntry)

/-- The initialiser's one step: `VAL` built, then `READY <- 1` (70_reset_and_hazards.md R117). The datapath registers, which
are unspecified after it too (10_state.md R31), stay: DESIGN CHOICE, log 6, unsafe. -/
def State.initialise (s : State) : State :=
  { s with tables := { s.tables with val := buildVal s.tables.sym }, ready := true }

/-- A request is taken only while `READY = 1`; before that it is held, neither answered nor dropped, and the codec changes
nothing (70_reset_and_hazards.md R119). -/
def State.whenReady (s : State) (k : Host.Outcome State Fault Refusal) : Host.Outcome State Fault Refusal :=
  if s.ready then k else .next s

/-- What the datapath registers hold between transactions: unspecified (10_state.md R31), one free value per register and
transaction. Log 7, safe. -/
def Datapath.between (n : Nat) : Datapath :=
  { rem := Config.freeRem n
    dig := Config.freeDig n
    pos := Config.freePos n
    acc := Config.freeAcc n
    inv := Config.freeInv n
    ovf := Config.freeOvf n
    nodelim := Config.freeNodelim n }

/-- The end of a transaction: its request leaves the queue, its one response is delivered after all earlier ones
(30_encoding.md R56, 60_exceptions.md R112), and the datapath registers hold nothing of it (10_state.md R21, R31). -/
def State.complete (s : State) (r : Response) : State :=
  { s with
    pending := s.pending.tail
    responses := s.responses ++ [r]
    dp := Datapath.between s.draws
    draws := s.draws + 1 }

/-- A request placed so that the codec's very next step takes it: the initialiser has run if it had not, and the request
is the oldest pending one. DESIGN CHOICE, log 13, safe. -/
def State.placeNext (s : State) (r : Request) : State :=
  let t := if s.ready then s else s.initialise
  { t with pending := r :: t.pending }

/-- The digit positions in the order both paths work them, 11 down to 0 (10_state.md R27, 40_encode.md R66). -/
def positions : List (Fin 12) := [11, 10, 9, 8, 7, 6, 5, 4, 3, 2, 1, 0]

end Sys2Proof.Machine
end

