-- ==== Sys2Proof/WellFormed.lean ====
section
/-! DEFINITION. Which alphabets are admissible (10_state.md R15, constraints 1 to 5), which capacities (00_scope.md R8)
and which requests a host may present beside the legal header (60_exceptions.md R113). -/

namespace Sys2Proof

namespace Config

/-- A lowercase letter a..z in ASCII. -/
def isLower (c : Byte) : Bool := 0x61#8 ≤ c && c ≤ 0x7A#8

/-- An uppercase letter A..Z in ASCII. -/
def isUpper (c : Byte) : Bool := 0x41#8 ≤ c && c ≤ 0x5A#8

/-- Constraint 1: `SYM[d]` is the decimal digit d, for d = 0..9. -/
abbrev Alphabet.DigitsFirst (a : Alphabet) : Prop :=
  ∀ d : Fin 10, a[d.val] = 0x30#8 + BitVec.ofNat 8 d.val

/-- Constraint 2: after the digits, `NL` lowercase letters and then `NU = 46 - NL` uppercase letters. -/
abbrev Alphabet.LettersSplit (a : Alphabet) : Prop :=
  ∃ nl : Fin 47, ∀ j : Fin 46,
    if j.val < nl.val then isLower (a[10 + j.val]) = true else isUpper (a[10 + j.val]) = true

/-- Constraint 3: `SYM[55]` is `Z`. -/
abbrev Alphabet.LastIsZ (a : Alphabet) : Prop := a[55] = 0x5A#8

/-- Constraint 4: the 56 codes are pairwise distinct. -/
abbrev Alphabet.Distinct (a : Alphabet) : Prop := a.toList.Nodup

/-- Constraint 5: the delimiter is not among them. -/
abbrev Alphabet.NoDelim (a : Alphabet) : Prop := delim ∉ a.toList

/-- An admissible alphabet (10_state.md R15). -/
abbrev Alphabet.Admissible (a : Alphabet) : Prop :=
  a.DigitsFirst ∧ a.LettersSplit ∧ a.LastIsZ ∧ a.Distinct ∧ a.NoDelim

/-- `LEN <= PFX_MAX` (20_memory.md R36). -/
def Caps.admitsPrefix (c : Caps) (len : Nat) : Bool :=
  match c.pfxMax with
  | none => true
  | some n => len ≤ n

/-- `LEN <= IN_MAX` (20_memory.md R36). -/
def Caps.admitsInput (c : Caps) (len : Nat) : Bool :=
  match c.inMax with
  | none => true
  | some n => len ≤ n

/-- `IN_MAX >= 12` (00_scope.md R8). -/
abbrev Caps.Admissible (c : Caps) : Prop := c.admitsInput 12 = true

end Config

/-- The requests a host may present: the prefix free of the delimiter and the strings within capacity
(70_reset_and_hazards.md R128, 60_exceptions.md R113). Every operand of `ENC` is legal (30_encoding.md R53). -/
def Instr.wellFormed (c : Config.Caps) (i : Instr) : Bool :=
  match i with
  | .enc _ _ => true
  | .encp _ _ pfx => c.admitsPrefix pfx.length && !pfx.contains Config.delim
  | .dec str => c.admitsInput str.length
  | .decp str => c.admitsInput str.length

end Sys2Proof
end

