-- ==== Sys2Proof/Machine/Operands.lean ====
section
/-! DEFINITION. The operand forms: the strip of an encoded string (40_encode.md R75), the normalisation of a decode input
(41_decode.md R86), the split at the first delimiter (R96), and the status byte of a response (30_encoding.md R57). -/

namespace Sys2Proof.Machine

/-- How many leading bytes equal `ZERO_SYM` (40_encode.md R75). -/
def leadingZeros : List Byte → Nat
  | [] => 0
  | c :: cs => if c = Config.zeroSym then leadingZeros cs + 1 else 0

/-- The strip rule on a 12-symbol string: leading zero symbols go, at least one symbol stays (40_encode.md R75). -/
def strip (s12 : List Byte) : List Byte :=
  if leadingZeros s12 = s12.length then s12.drop (s12.length - 1) else s12.drop (leadingZeros s12)

/-- `X` and `T` of a decode input: the excess leading symbols, and the last twelve, left-padded with zero symbols
(41_decode.md R86). -/
def normalise (s : List Byte) : List Byte × List Byte :=
  if s.length ≤ 12 then ([], List.replicate (12 - s.length) Config.zeroSym ++ s)
  else (s.take (s.length - 12), s.drop (s.length - 12))

/-- Everything after the first delimiter; `none` when there is no delimiter (41_decode.md R96). -/
def afterDelim : List Byte → Option (List Byte)
  | [] => none
  | c :: cs => if c = Config.delim then some cs else afterDelim cs

/-- Zero extension to the accumulator's width; the only widening there is (00_scope.md R11 `zext_N`, 30_encoding.md
R55). -/
def zextAcc {n : Nat} (v : BitVec n) : Acc := v.setWidth 70

/-- The code of an error (60_exceptions.md R101). -/
def CodecError.code (e : CodecError) : BitVec 2 :=
  match e with
  | .invalidSymbol => 0b01#2
  | .malformedInput => 0b10#2
  | .overflow => 0b11#2

/-- `RSP.ERR` (30_encoding.md R57): `00` on success. -/
def Response.errBits (r : Response) : BitVec 2 :=
  match r with
  | .okString _ => 0b00#2
  | .okValue _ => 0b00#2
  | .err e => e.code

/-- The status byte `STAT`: `ERR` in bits 1:0, bits 7:2 zero (30_encoding.md R57). -/
def Response.stat (r : Response) : Byte := 0#6 ++ r.errBits

/-- `RSP.VALUE`, where the response has one (10_state.md R23). -/
def Response.value? (r : Response) : Option Word :=
  match r with
  | .okString _ => none
  | .okValue v => some v
  | .err _ => none

/-- `RSP.STR`, where the response has one; `RSP.LEN` is its length (10_state.md R23). -/
def Response.str? (r : Response) : Option (List Byte) :=
  match r with
  | .okString s => some s
  | .okValue _ => none
  | .err _ => none

end Sys2Proof.Machine
end

