-- ==== Sys2Proof/Machine/Flags.lean ====
section
/-! DEFINITION. The three flags of the decode path: cleared at its start (41_decode.md R85), set by R87, R89 and R97, read
only by the rule that forms `ERR` (10_state.md R28, 60_exceptions.md R108). No encode operation sets one. -/

namespace Sys2Proof.Machine

/-- `INV`, `OVF`, `NODELIM` and `ACC` cleared at the start of a decode transaction (41_decode.md R85). -/
def Datapath.clear (d : Datapath) : Datapath :=
  { d with acc := 0#70, inv := false, ovf := false, nodelim := false }

/-- `NODELIM <- 1` when a `DECP` input holds no delimiter (41_decode.md R96, R97). -/
def Datapath.flagNoDelim (d : Datapath) (rest : Option (List Byte)) : Datapath :=
  if rest.isNone then { d with nodelim := true } else d

/-- `INV <- 1` when some byte of the string has an invalid entry, excess symbols included (41_decode.md R87). -/
def Datapath.flagInvalid (t : Tables) (s : List Byte) (d : Datapath) : Datapath :=
  s.foldl (fun d c => if entryValid (t.readVal c) then d else { d with inv := true }) d

/-- `OVF <- 1` when `ACC > MAX64`, or when an excess symbol's digit is not 0 (41_decode.md R89, R94). -/
def Datapath.flagOverflow (t : Tables) (x : List Byte) (d : Datapath) : Datapath :=
  let d := if Config.max64 < d.acc then { d with ovf := true } else d
  if x.any (fun c => entryDigit (t.readVal c) != 0#6) then { d with ovf := true } else d

/-- `ERR = 10 if NODELIM; else 01 if INV; else 11 if OVF; else 00` (60_exceptions.md R108). -/
def Datapath.error? (d : Datapath) : Option CodecError :=
  if d.nodelim then some .malformedInput
  else if d.inv then some .invalidSymbol
  else if d.ovf then some .overflow
  else none

end Sys2Proof.Machine
end

