-- ==== Sys2Proof/Machine/DecodePath.lean ====
section
/-! DEFINITION. The decode path: normalise, look up, accumulate, check the bound (41_decode.md R85 to R89), and the
operations `DEC` (R92) and `DECP` (R96). -/

namespace Sys2Proof.Machine

/-- `DIG[11-k] <- d` where `VAL[T[k]] = valid(d)`, k = 0..11 (41_decode.md R87). -/
def loadDigits (t : Tables) (t12 : List Byte) (d : Datapath) : Datapath :=
  (positions.zip t12).foldl (fun d pc => { d with dig := d.dig.set pc.1.val (entryDigit (t.readVal pc.2)) }) d

/-- `ACC <- ACC + DIG[p] * POW[p]` for one position, in 70 bits (41_decode.md R88, R90). -/
def accumulateStep (t : Tables) (d : Datapath) (p : Fin 12) : Datapath :=
  { d with acc := d.acc + zextAcc d.dig[p.val] * zextAcc (t.readPow p) }

/-- The weighted sum over the twelve positions, most significant first (41_decode.md R88). -/
def accumulate (t : Tables) (d : Datapath) : Datapath :=
  positions.foldl (accumulateStep t) { d with acc := 0#70 }

/-- The decode of a string from cleared flags: the datapath as the response leaves, and the response
(41_decode.md R86 to R89, R92). An error ends it: nothing is accumulated after an invalid symbol
(60_exceptions.md R108). -/
def decodeString (t : Tables) (s : List Byte) (d : Datapath) : Datapath × Response :=
  let xt := normalise s
  let d1 := d.flagInvalid t s
  match d1.error? with
  | some e => (d1, .err e)
  | none =>
    let d2 := (accumulate t (loadDigits t xt.2 d1)).flagOverflow t xt.1
    match d2.error? with
    | some e => (d2, .err e)
    | none => (d2, .okValue (d2.acc.extractLsb' 0 64))

/-- The decode of a string with a domain prefix: MalformedInput without a delimiter, otherwise the decode of all that
follows the first one (41_decode.md R96, R97). -/
def decodePrefixed (t : Tables) (s : List Byte) (d : Datapath) : Datapath × Response :=
  let rest := afterDelim s
  let d1 := d.flagNoDelim rest
  match d1.error? with
  | some e => (d1, .err e)
  | none => decodeString t (rest.getD []) d1

/-- A decode transaction whose input is within capacity; a longer one is refused (20_memory.md R36). -/
def State.answerDecoded (s : State) (len : Nat) (r : Response) : Host.Outcome State Fault Refusal :=
  if !s.caps.admitsInput len then .refused .stringTooLong else .next (s.complete r)

/-- `DEC "string"` (41_decode.md R92). -/
def execDec (str : List Byte) (s : State) : Host.Outcome State Fault Refusal :=
  s.whenReady (s.answerDecoded str.length (decodeString s.tables str s.dp.clear).2)

/-- `DECP "string"` (41_decode.md R96). -/
def execDecp (str : List Byte) (s : State) : Host.Outcome State Fault Refusal :=
  s.whenReady (s.answerDecoded str.length (decodePrefixed s.tables str s.dp.clear).2)

end Sys2Proof.Machine
end

