-- ==== Sys2Proof/Machine/EncodePath.lean ====
section
/-! DEFINITION. The encode path: the digit-extraction pipeline (40_encode.md R66 to R69), symbol emission (R72), and the
operations `ENC` (R73) and `ENCP` (R78). -/

namespace Sys2Proof.Machine

/-- The largest multiplier `m <= n` whose product `THR[p][m]` does not exceed `REM`, where `row` is `THR[p]`; 0 when no
larger one does (40_encode.md R67). -/
def largestMultiplier (row : Vector Word 56) (rem : Word) : (n : Nat) → n < 56 → Fin 56
  | 0, _ => 0
  | n + 1, h => if row[n + 1] ≤ rem then ⟨n + 1, h⟩ else largestMultiplier row rem n (Nat.lt_of_succ_lt h)

/-- The digit a stage finds and the threshold it subtracts. Position 11 is binary, one comparison with `POW[11]`
(40_encode.md R68); the others take the largest of the multipliers 0..55 (R67). -/
def stageDigit (t : Tables) (p : Fin 12) (rem : Word) : Digit × Word :=
  if h : p.val < 11 then
    let row := t.thr[p.val]
    let m := largestMultiplier row rem 55 (by decide)
    (BitVec.ofNat 6 m.val, row[m.val])
  else if t.readPow 11 ≤ rem then (1#6, t.thrTop[1])
  else (0#6, t.thrTop[0])

/-- Stage `Sp`: `POS` is the position, `DIG[p]` the digit, `REM` reduced by the digit's threshold
(40_encode.md R66 to R69). -/
def encodeStage (t : Tables) (d : Datapath) (p : Fin 12) : Datapath :=
  let m := stageDigit t p d.rem
  { d with
    pos := BitVec.ofNat 4 p.val
    dig := d.dig.set p.val m.1
    rem := d.rem - m.2 }

/-- The whole pipeline: `REM <- REQ.VALUE`, then the stages S11 to S0 (40_encode.md R66). -/
def encodePipeline (t : Tables) (v : Word) (d : Datapath) : Datapath :=
  positions.foldl (encodeStage t) { d with rem := v }

/-- The symbols of the digits at the given positions, in that order; `none` where `SYM` has no such address
(40_encode.md R72). -/
def emitSymbols (t : Tables) (dig : Vector Digit 12) : List (Fin 12) → Option (List Byte)
  | [] => some []
  | p :: ps =>
    match t.readSym dig[p.val], emitSymbols t dig ps with
    | some c, some cs => some (c :: cs)
    | _, _ => none

/-- `S12`, the padded encoded value: `S12[k] = SYM[DIG[11-k]]` (40_encode.md R72). -/
def encodePadded (t : Tables) (v : Word) (d : Datapath) : Option (List Byte) :=
  emitSymbols t (encodePipeline t v d).dig positions

/-- A transaction that answers a string made from `S12`; it faults where the emission has no symbol. -/
def State.answerEncoded (s : State) (v : Word) (f : List Byte → List Byte) : Host.Outcome State Fault Refusal :=
  match encodePadded s.tables v s.dp with
  | some s12 => .next (s.complete (.okString (f s12)))
  | none => .fault .symAddress

/-- `ENC value, pad` (40_encode.md R73): 12 symbols when padded, otherwise stripped (R75); no error (R76). -/
def execEnc (pad : Bool) (v : Word) (s : State) : Host.Outcome State Fault Refusal :=
  s.whenReady (s.answerEncoded v (fun s12 => if pad then s12 else strip s12))

/-- `ENCP value, "prefix"` (40_encode.md R78): the prefix, the delimiter, the 12 symbols, whatever `PAD` is (R79).
A prefix over capacity is refused (20_memory.md R36), and so is one that holds the delimiter (R80).
Which reason is named where both hold: DESIGN CHOICE, log 16, safe. -/
def execEncp (_pad : Bool) (v : Word) (pfx : List Byte) (s : State) : Host.Outcome State Fault Refusal :=
  s.whenReady
    (if !s.caps.admitsPrefix pfx.length then .refused .stringTooLong
     else if pfx.contains Config.delim then .refused .delimiterInPrefix
     else s.answerEncoded v (fun s12 => pfx ++ [Config.delim] ++ s12))

end Sys2Proof.Machine
end

