-- ==== Sys2Proof/Machine/Dispatch.lean ====
section
/-! DEFINITION. One arm per operation of `opcode_table.json`. -/

namespace Sys2Proof.Machine

def exec (i : Instr) (s : State) : Host.Outcome State Fault Refusal :=
  match i with
  | .enc pad v => Sys2Proof.Machine.execEnc pad v s
  | .encp pad v pfx => Sys2Proof.Machine.execEncp pad v pfx s
  | .dec str => Sys2Proof.Machine.execDec str s
  | .decp str => Sys2Proof.Machine.execDecp str s

end Sys2Proof.Machine
end

