-- ==== Sys2Proof/Machine/Schedule.lean ====
section
/-! DEFINITION. Which agent's step is the block's next one (70_reset_and_hazards.md R127), and the taking of the oldest
pending request. -/

namespace Sys2Proof.Machine

/-- The codec's step on a request it takes: a refusal by name where the header is illegal (60_exceptions.md R113),
otherwise the operation. DEDUCED, log 10, safe. -/
def takeRequest (r : Request) (s : State) : Host.Outcome State Fault Refusal :=
  match decode r with
  | .ok i => exec i s
  | .error (.illegalHeader h) => .refused (.illegalHeader h)

/-- The initialiser's step while `READY = 0` (70_reset_and_hazards.md R117); otherwise the codec takes the oldest pending
request (R127); with nothing pending the block waits (R126). DESIGN CHOICE, logs 8 and 9, safe. -/
def agentStep (s : State) : Host.Outcome State Fault Refusal :=
  if s.ready then
    match s.pending with
    | [] => .next s
    | r :: _ => takeRequest r s
  else .next s.initialise

end Sys2Proof.Machine
end

