-- ==== Sys2Proof/Machine/Step.lean ====
section
/-! DEFINITION. One step of the block, and the placing of an instruction where the step takes its next one. -/

namespace Sys2Proof.Machine

/-- One step: the enabled agent's (70_reset_and_hazards.md R127), one whole transaction for the codec (00_scope.md R13).
DESIGN CHOICE, logs 1 and 18, safe. -/
def step (s : State) : Host.Outcome State Fault Refusal := agentStep s

/-- The table word's request placed so that the next step runs it. DESIGN CHOICE, log 13, safe. -/
def State.withFetchWord (s : State) (nbits w : Nat) : State := s.placeNext (requestOfBits nbits w)

end Sys2Proof.Machine
end

