-- ==== Sys2Proof/Machine/HostPort.lean ====
section
/-! DEFINITION. The host's interface (70_reset_and_hazards.md R128) and the block's agents (R127): what a host may do
between two steps, and which agent's step is enabled. DESIGN CHOICE, log 11, safe. -/

namespace Sys2Proof.Machine

/-- The agents of the block itself (70_reset_and_hazards.md R127(a), (b)). -/
inductive Agent where
  | initialiser
  | codec
  deriving DecidableEq, Repr

/-- When an agent has a step: the initialiser while `READY = 0`, the codec while `READY = 1` and a request is pending
(70_reset_and_hazards.md R127). -/
def State.enabled (s : State) (a : Agent) : Bool :=
  match a with
  | .initialiser => !s.ready
  | .codec => s.ready && !s.pending.isEmpty

/-- What a host can do (70_reset_and_hazards.md R128): nothing writes a table, sets or clears `READY` but by a reset,
reads a datapath register or cancels a request. -/
inductive HostMove where
  /-- Present a request, behind all those presented before. -/
  | present (r : Request)
  /-- Take the oldest response delivered. -/
  | takeResponse
  /-- Read `READY`. -/
  | readReady
  /-- Cause a reset. -/
  | reset
  deriving DecidableEq, Repr

/-- What a host gets from a move. -/
inductive HostGets where
  | nothing
  | response (r : Response)
  | ready (b : Bool)
  deriving DecidableEq, Repr

/-- A reset of a block in use: the state after reset with this block's own alphabet and capacities; requests in flight
and responses pending are lost (70_reset_and_hazards.md R116). The count of free values goes on. DEDUCED, log 12,
safe. -/
def State.hostReset (s : State) : State := { State.resetWith s.tables.sym s.caps with draws := s.draws }

/-- A move of the host: what it gets, and the state it leaves. Taking a response with none delivered gives nothing and
changes nothing, and presented requests queue without a bound: DESIGN CHOICE, log 11, safe. -/
def State.hostMove (s : State) (m : HostMove) : HostGets × State :=
  match m with
  | .present r => (.nothing, { s with pending := s.pending ++ [r] })
  | .takeResponse =>
    match s.responses with
    | [] => (.nothing, s)
    | r :: rs => (.response r, { s with responses := rs })
  | .readReady => (.ready s.ready, s)
  | .reset => (.nothing, s.hostReset)

end Sys2Proof.Machine
end

