-- ==== Sys2Proof/Safety.lean ====
section
/-! DEFINITION. The terms claims use: the invariant of the block's state, and the reference answers, written from the
closed forms of the spec (40_encode.md R70, R75; 41_decode.md R94) and not from the machine's own pipeline. -/

namespace Sys2Proof

namespace Machine

/-- The read-only tables hold their constants: an admissible alphabet (10_state.md R15), the powers (R18), the multiplier
array (R19). -/
abbrev Tables.RomOk (t : Tables) : Prop :=
  Config.Alphabet.Admissible t.sym ∧ t.pow = Config.powTable ∧ t.thr = Config.thrTable ∧ t.thrTop = Config.thrTopTable

/-- `VAL` is the inverse of `SYM`: `VAL[SYM[d]] = valid(d)`, and every code that is no entry of `SYM` is `invalid`
(10_state.md R17). -/
abbrev Tables.ValInverse (t : Tables) : Prop :=
  (∀ d : Fin 56, t.readVal t.sym[d.val] = validEntry (BitVec.ofNat 6 d.val)) ∧
  (∀ c : Byte, c ∉ t.sym.toList → t.readVal c = invalidEntry)

/-- The invariant of the block's state: the tables as the spec defines them, `VAL` once `READY = 1` (10_state.md R31),
and `IN_MAX >= 12` (00_scope.md R8). -/
abbrev State.Inv (s : State) : Prop :=
  s.tables.RomOk ∧ (s.ready = true → s.tables.ValInverse) ∧ s.caps.Admissible

end Machine

namespace Reference

/-- The digit of position `p` of `v`: `(v div 56^p) mod 56` (40_encode.md R70(b)). -/
def digit (v p : Nat) : Nat := v / 56 ^ p % 56

theorem digit_lt (v p : Nat) : digit v p < 56 := Nat.mod_lt _ (by decide)

/-- The padded encoded value: 12 symbols, index k carrying position `11 - k` (20_memory.md R37, 40_encode.md R72). -/
def paddedString (a : Config.Alphabet) (v : Nat) : List Byte :=
  (List.range 12).map fun k => a[digit v (11 - k)]'(digit_lt v (11 - k))

/-- The least `L >= 1` with `v < 56^L`, for `v < 56^12` (40_encode.md R75). -/
def symbolsNeeded (v : Nat) : Nat := ((List.range 11).filter fun l => 56 ^ (l + 1) ≤ v).length + 1

/-- The unpadded form: the last `symbolsNeeded` symbols of the padded one (40_encode.md R75). -/
def unpaddedString (a : Config.Alphabet) (v : Nat) : List Byte :=
  (paddedString a v).drop (12 - symbolsNeeded v)

/-- The exact value of a string, the sum over all its symbols of `digit * 56^(L-1-k)`; `none` when a symbol is not in the
alphabet (41_decode.md R94, 60_exceptions.md R102). -/
def value (a : Config.Alphabet) : List Byte → Option Nat
  | [] => some 0
  | c :: cs =>
    match a.toList.idxOf? c, value a cs with
    | some d, some n => some (d * 56 ^ cs.length + n)
    | _, _ => none

/-- The answer of `DEC` (41_decode.md R92, R94): InvalidSymbol, Overflow when the exact value exceeds `MAX64`, or the
value. -/
def decodeAnswer (a : Config.Alphabet) (s : List Byte) : Machine.Response :=
  match value a s with
  | none => .err .invalidSymbol
  | some n => if n < 2 ^ 64 then .okValue (BitVec.ofNat 64 n) else .err .overflow

/-- The answer of `DECP` (41_decode.md R96): MalformedInput without a delimiter, or the answer of `DEC` to all that
follows the first one. -/
def decodePrefixedAnswer (a : Config.Alphabet) (s : List Byte) : Machine.Response :=
  match s.dropWhile (fun c => c != Config.delim) with
  | [] => .err .malformedInput
  | _ :: rest => decodeAnswer a rest

/-- The response to an operation, a pure function of the operation and the alphabet (00_scope.md R13, 20_memory.md R43). -/
def answer (a : Config.Alphabet) (i : Instr) : Machine.Response :=
  match i with
  | .enc pad v => .okString (if pad then paddedString a v.toNat else unpaddedString a v.toNat)
  | .encp _ v pfx => .okString (pfx ++ Config.delim :: paddedString a v.toNat)
  | .dec s => decodeAnswer a s
  | .decp s => decodePrefixedAnswer a s

end Reference

end Sys2Proof
end

