-- ==== Sys2Proof/Certificates/Slice0/Obligations.lean ====
section
/-! DEFINITION. The statements for the provers, from the numbered rules of spec/. -/

open Sys2Proof Sys2Proof.Machine

/-! ## Requests and their encoding (30_encoding.md) -/

/-- The decoder reads back every instruction the encoder writes, with every operand at every value (R50, R51, R58). -/
def Obligations.DecodeInvertsEncode : Prop :=
  (∀ i : Instr, decode (encode i) = .ok i) ∧
  ∀ (r : Request) (i : Instr), decode r = .ok i →
    (encode i).hdr = r.hdr ∧
    (∀ pad v, i = .enc pad v → v = r.value) ∧
    (∀ pad v pfx, i = .encp pad v pfx → v = r.value ∧ pfx = r.str) ∧
    (∀ s, i = .dec s ∨ i = .decp s → s = r.str)

/-- R58: the rows of the opcode map by match and mask; the four rows are disjoint. -/
def Obligations.OpcodeMapSelectsOperation : Prop :=
  (∀ r : Request, r.hdr &&& 0xFB#8 = 0x00#8 → decode r = .ok (.enc (r.hdr.getLsbD 2) r.value)) ∧
  (∀ r : Request, r.hdr &&& 0xFB#8 = 0x01#8 → decode r = .ok (.encp (r.hdr.getLsbD 2) r.value r.str)) ∧
  (∀ r : Request, r.hdr &&& 0xFF#8 = 0x02#8 → decode r = .ok (.dec r.str)) ∧
  (∀ r : Request, r.hdr &&& 0xFF#8 = 0x03#8 → decode r = .ok (.decp r.str)) ∧
  (∀ h : Byte, ([h &&& 0xFB#8 == 0x00#8, h &&& 0xFB#8 == 0x01#8, h &&& 0xFF#8 == 0x02#8,
    h &&& 0xFF#8 == 0x03#8].filter (fun b => b)).length = if h.toNat ≤ 5 then 1 else 0)

/-- R59: the header bytes 0x06..0xFF, which are those with a reserved bit set or with `PAD` on `OP` 10 or 11, select no
operation, and a request with one is refused by name, with no response; 0x00..0x05 are the legal ones. -/
def Obligations.IllegalHeaderRefused : Prop :=
  ∀ r : Request,
    (6 ≤ r.hdr.toNat ↔ hdrRsv r.hdr ≠ 0#5 ∨ ((hdrOp r.hdr = 0b10#2 ∨ hdrOp r.hdr = 0b11#2) ∧ hdrPad r.hdr = true)) ∧
    (r.hdr.toNat ≤ 5 → ∃ i, decode r = .ok i) ∧
    (6 ≤ r.hdr.toNat → decode r = .error (.illegalHeader r.hdr) ∧
      ∀ (s : State) (rest : List Request), s.ready = true → s.pending = r :: rest →
        step s = .refused (.illegalHeader r.hdr))

/-- R61: `ENC` ignores `LEN` and `STR`, `DEC` and `DECP` ignore `VALUE`: neither what is decoded nor the outcome of the
step that takes the request depends on them. -/
def Obligations.UnusedFieldsIgnored : Prop :=
  (∀ (h : Byte) (v : Word) (x x' : List Byte), hdrOp h = 0b00#2 → decode ⟨h, v, x⟩ = decode ⟨h, v, x'⟩ ∧
    ∀ (s : State) (rest : List Request), s.ready = true →
      step { s with pending := ⟨h, v, x⟩ :: rest } = step { s with pending := ⟨h, v, x'⟩ :: rest }) ∧
  (∀ (h : Byte) (v v' : Word) (x : List Byte), hdrOp h = 0b10#2 ∨ hdrOp h = 0b11#2 →
    decode ⟨h, v, x⟩ = decode ⟨h, v', x⟩ ∧
    ∀ (s : State) (rest : List Request), s.ready = true →
      step { s with pending := ⟨h, v, x⟩ :: rest } = step { s with pending := ⟨h, v', x⟩ :: rest })

/-- The words of `opcode_table.json`, each legal header byte and the first illegal ones (R58, R59). The zero and empty
operands of a table word are the model's choice, for the table gives a row no operand bits (log 2, DESIGN CHOICE). -/
def Obligations.TableWordsDecode : Prop :=
  decodeTableWord 8 0x00 = some (.enc false 0) ∧ decodeTableWord 8 0x04 = some (.enc true 0) ∧
  decodeTableWord 8 0x01 = some (.encp false 0 []) ∧ decodeTableWord 8 0x05 = some (.encp true 0 []) ∧
  decodeTableWord 8 0x02 = some (.dec []) ∧ decodeTableWord 8 0x03 = some (.decp []) ∧
  decodeTableWord 8 0x06 = none ∧ decodeTableWord 8 0x07 = none ∧ decodeTableWord 8 0x08 = none

/-- A step runs the decoded instruction: with `READY = 1` and the oldest pending request decoding to `i`, the step is
`exec i` at that very state (R127(b)); `exec` itself takes the request out of the queue. -/
def Obligations.StepRunsDecodedInstruction : Prop :=
  ∀ (s : State) (r : Request) (rest : List Request) (i : Instr),
    s.ready = true → s.pending = r :: rest → decode r = .ok i → step s = exec i s

/-- A table word placed with `withFetchWord` is what the next step runs, from every state. The placing is the model's
(log 13). -/
def Obligations.PlacedWordRunsNext : Prop :=
  ∀ (s : State) (nbits w : Nat) (i : Instr), decodeTableWord nbits w = some i →
    (s.withFetchWord nbits w).ready = true ∧ step (s.withFetchWord nbits w) = exec i (s.withFetchWord nbits w)

/-! ## Reset, initialisation, the hold (10_state.md, 70_reset_and_hazards.md) -/

/-- R116: after a reset, of a block of any alphabet and at any time, `READY = 0`, no transaction is in flight, no response
is pending, `SYM` is the alphabet, `POW` and `THR` are the constants; what was pending is lost. -/
def Obligations.ResetLeavesSpecifiedState : Prop :=
  ∀ (a : Config.Alphabet) (t : State),
    ((∃ c, t = State.resetWith a c) ∨ (∃ s : State, s.tables.sym = a ∧ t = (s.hostMove .reset).2)) →
    t.ready = false ∧ t.pending = [] ∧ t.responses = [] ∧ t.tables.sym = a ∧
    (∀ p : Fin 12, (t.tables.readPow p).toNat = 56 ^ p.val) ∧
    (∀ (p : Fin 11) (m : Fin 56), (t.tables.thr[p.val][m.val]).toNat = m.val * 56 ^ p.val) ∧
    (∀ m : Fin 2, (t.tables.thrTop[m.val]).toNat = m.val * 56 ^ 11)

/-- The values the MODEL names at reset where the spec gives none: `VAL` all invalid (log 5), the datapath registers 0
(log 6), the alphabet `A0` (log 3), strings without a bound (log 4), the count of free values 0 (log 7). -/
def Obligations.ResetValuesTheModelNames : Prop :=
  (∀ c : Byte, State.reset.tables.readVal c = 0#7) ∧
  State.reset.dp = { rem := 0, dig := Vector.replicate 12 0, pos := 0, acc := 0, inv := false, ovf := false,
                     nodelim := false } ∧
  State.reset.tables.sym = Config.alphabetA0 ∧ Config.alphabetA0.Admissible ∧
  State.reset.caps = { pfxMax := none, inMax := none } ∧ State.reset.draws = 0

/-- While `READY = 0` the initialiser's step is the step, whatever is pending (R117): `VAL` becomes the inverse of `SYM`,
`READY` becomes 1, the other tables and the queues stay, and the initialiser has no further step. That the datapath
registers stay is the model's choice, for R31 leaves them unspecified after this step too (logs 6 and 7, DESIGN CHOICE), and
`draws` is the model's own field (log 7). -/
def Obligations.InitialiserBuildsInverse : Prop :=
  ∀ s : State, s.ready = false → Config.Alphabet.Distinct s.tables.sym →
    s.enabled .initialiser = true ∧
    ∃ t, step s = .next t ∧ t.ready = true ∧ t.tables.ValInverse ∧ t.enabled .initialiser = false ∧
      t.tables.sym = s.tables.sym ∧ t.tables.pow = s.tables.pow ∧ t.tables.thr = s.tables.thr ∧
      t.tables.thrTop = s.tables.thrTop ∧ t.caps = s.caps ∧ t.pending = s.pending ∧ t.responses = s.responses ∧
      t.dp = s.dp ∧ t.draws = s.draws

/-- R20: `READY` is 0 after reset, 1 after the initialisation step, and never cleared but by a reset; the host can read it,
and no other host move changes it; while it is 0 no request is taken; while it is 1 the tables are built (the table
invariant, which every run from reset keeps, says so) and the oldest request is executed. -/
def Obligations.ReadyBitLifeCycle : Prop :=
  ∀ s : State,
    (s.hostMove .reset).2.ready = false ∧
    (∀ t, step s = .next t → t.ready = true) ∧
    (∀ m : HostMove, m ≠ .reset → (s.hostMove m).2.ready = s.ready) ∧
    s.hostMove .readReady = (.ready s.ready, s) ∧
    (s.ready = false → ∃ t, step s = .next t ∧ t.pending = s.pending ∧ t.responses = s.responses) ∧
    (s.ready = true → (s.Inv → s.tables.ValInverse) ∧
      ∀ (r : Request) (rest : List Request) (i : Instr), s.pending = r :: rest → decode r = .ok i → step s = exec i s)

/-- R118: while `READY = 1` the initialiser has no step, and no step and no host move but a reset writes `VAL` or clears
`READY`. -/
def Obligations.InitialisationOncePerReset : Prop :=
  ∀ s : State, s.ready = true →
    s.enabled .initialiser = false ∧
    (∀ t, step s = .next t → t.ready = true ∧ t.tables.val = s.tables.val) ∧
    (∀ m : HostMove, m ≠ .reset → (s.hostMove m).2.ready = true ∧ (s.hostMove m).2.tables.val = s.tables.val)

/-- R16: the mapping is a bijection between digits and valid codes, and no request, operation or host action changes an
entry of a table; `VAL` is written by the initialiser alone, and a reset starts a new life of it. -/
def Obligations.TablesNeverMutated : Prop :=
  ∀ s : State, s.Inv →
    (∀ t, step s = .next t → t.tables.sym = s.tables.sym ∧ t.tables.pow = s.tables.pow ∧ t.tables.thr = s.tables.thr ∧
      t.tables.thrTop = s.tables.thrTop ∧ (s.ready = true → t.tables.val = s.tables.val)) ∧
    (∀ m : HostMove, (s.hostMove m).2.tables.sym = s.tables.sym ∧ (s.hostMove m).2.tables.pow = s.tables.pow ∧
      (s.hostMove m).2.tables.thr = s.tables.thr ∧ (s.hostMove m).2.tables.thrTop = s.tables.thrTop ∧
      (m ≠ .reset → (s.hostMove m).2.tables.val = s.tables.val)) ∧
    (s.ready = true →
      (∀ d e : Fin 56, s.tables.sym[d.val] = s.tables.sym[e.val] → d = e) ∧
      (∀ d : Fin 56, entryValid (s.tables.readVal s.tables.sym[d.val]) = true ∧
        (entryDigit (s.tables.readVal s.tables.sym[d.val])).toNat = d.val) ∧
      (∀ c : Byte, entryValid (s.tables.readVal c) = true → ∃ d : Fin 56, s.tables.sym[d.val] = c))

/-- The invariant holds at reset, for the model's own parameters and for every admissible alphabet and capacity. -/
def Obligations.ResetMeetsInvariant : Prop :=
  State.reset.Inv ∧
  ∀ (a : Config.Alphabet) (c : Config.Caps), a.Admissible → c.Admissible → (State.resetWith a c).Inv

/-- Every step keeps the invariant of the block's state: the read-only tables at their constants, `VAL` the inverse of
`SYM` once `READY = 1`, `IN_MAX >= 12`. -/
def Obligations.EveryStepKeepsInvariant : Prop :=
  ∀ s t : State, s.Inv → step s = .next t → t.Inv

/-- Every host move keeps the same invariant, a reset at any time included. -/
def Obligations.HostMovesKeepInvariant : Prop :=
  ∀ (s : State) (m : HostMove), s.Inv → (s.hostMove m).2.Inv

/-- R119: a request presented while `READY = 0` is held: neither answered nor dropped, `exec` changes nothing, and once
the initialisation step has run it is executed as usual. -/
def Obligations.RequestHeldUntilReady : Prop :=
  ∀ s : State, s.ready = false →
    (∀ i, exec i s = .next s) ∧
    ∃ t, step s = .next t ∧ t.ready = true ∧ t.pending = s.pending ∧ t.responses = s.responses ∧
      ∀ (r : Request) (rest : List Request) (i : Instr), s.pending = r :: rest → decode r = .ok i → step t = exec i t

/-- The agents of R127: the initialiser is enabled exactly while `READY = 0`, the codec exactly while `READY = 1` and a
request is pending, never both; with neither enabled a step changes nothing (log 9). -/
def Obligations.AgentsTakeTurns : Prop :=
  ∀ s : State,
    (s.enabled .initialiser = true ↔ s.ready = false) ∧
    (s.enabled .codec = true ↔ s.ready = true ∧ s.pending ≠ []) ∧
    ¬ (s.enabled .initialiser = true ∧ s.enabled .codec = true) ∧
    (s.enabled .initialiser = false → s.enabled .codec = false → step s = .next s)

/-- The boot order of R120 seen from reset: a request presented right after reset is answered by the second step. -/
def Obligations.BootAnswersHeldRequest : Prop :=
  ∀ (a : Config.Alphabet) (c : Config.Caps) (r : Request) (i : Instr), a.Admissible → c.Admissible →
    decode r = .ok i → i.wellFormed c = true →
    ∃ t, core.run 2 ((State.resetWith a c).hostMove (.present r)).2 = .next t ∧
      t.ready = true ∧ t.pending = [] ∧ t.responses = [Reference.answer a i]

/-- The host's moves of R128: what each gives and what each changes. R128 is silent on two points, which are the model's
choice (log 11, DESIGN CHOICE): taking a response with none delivered gives nothing and changes nothing, and presented
requests queue without a bound. -/
def Obligations.HostMovesDoOnlyTheirPart : Prop :=
  ∀ s : State,
    (∀ r, s.hostMove (.present r) = (.nothing, { s with pending := s.pending ++ [r] })) ∧
    (∀ r rs, s.responses = r :: rs → s.hostMove .takeResponse = (.response r, { s with responses := rs })) ∧
    (s.responses = [] → s.hostMove .takeResponse = (.nothing, s)) ∧
    s.hostMove .readReady = (.ready s.ready, s)

/-! ## Table reads (20_memory.md) -/

/-- A read of `POW` returns `56^p`, a read of `THR` returns `m * 56^p`, exactly (R35); the thresholds of position 11 that
R19 says do not exist are not there. That a read at `m >= 56` of a position 0..10 gives nothing is the model's, read from
R19's range (log 14, DEDUCED). -/
def Obligations.PowerAndThresholdReads : Prop :=
  ∀ t : Tables, t.RomOk →
    (∀ p : Fin 12, (t.readPow p).toNat = 56 ^ p.val) ∧
    (∀ (p : Fin 12) (m : Nat), (p.val ≤ 10 ∧ m ≤ 55) ∨ (p.val = 11 ∧ m ≤ 1) →
      ∃ w, t.readThr p m = some w ∧ w.toNat = m * 56 ^ p.val) ∧
    (∀ (p : Fin 12) (m : Nat), (p.val ≤ 10 ∧ 56 ≤ m) ∨ (p.val = 11 ∧ 2 ≤ m) → t.readThr p m = none)

/-- A read of `SYM` at a digit value 0..55 returns its symbol (R33). That a read at 56..63 gives nothing is the model's,
read from R33's range (log 14, DEDUCED). -/
def Obligations.SymbolReads : Prop :=
  ∀ (t : Tables) (d : Digit),
    (∀ h : d.toNat < 56, t.readSym d = some (t.sym[d.toNat]'h)) ∧ (56 ≤ d.toNat → t.readSym d = none)

/-- R34: the symbol-to-value table is total: after every step, the initialiser's included, every code reads as `valid(d)`
of its digit, or as `invalid`, all bits zero. -/
def Obligations.ValueReadsAreTotal : Prop :=
  ∀ s t : State, s.Inv → step s = .next t → ∀ c : Byte,
    (∃ d : Fin 56, t.tables.sym[d.val] = c ∧ t.tables.readVal c = 1#1 ++ BitVec.ofNat 6 d.val) ∨
    (c ∉ t.tables.sym.toList ∧ t.tables.readVal c = 0#7)

/-! ## The encode path (40_encode.md) -/

/-- R67: stages S10..S0 take the largest multiplier whose product does not exceed `REM`, for every value of `REM`. -/
def Obligations.StageTakesLargestMultiplier : Prop :=
  ∀ (t : Tables) (d : Datapath) (p : Fin 12), t.RomOk → p.val ≤ 10 →
    let m := (encodeStage t d p).dig[p.val].toNat
    m ≤ 55 ∧ m * 56 ^ p.val ≤ d.rem.toNat ∧
    (∀ k, m < k → k ≤ 55 → d.rem.toNat < k * 56 ^ p.val)

/-- R68: stage S11 is binary, one comparison with `56^11`. -/
def Obligations.TopStageIsBinary : Prop :=
  ∀ (t : Tables) (d : Datapath), t.RomOk →
    (16985107389382393856 ≤ d.rem.toNat → (encodeStage t d 11).dig[11] = 1#6) ∧
    (d.rem.toNat < 16985107389382393856 → (encodeStage t d 11).dig[11] = 0#6)

/-- What the spec derives of the stages: at positions 0..10 the comparison results are a run of ones followed by a run of
zeros, "and `DIG[p]` is the number of ones" (R67); at position 11 the one comparison "equals the general rule of R67 taken
over mathematical integers" (R68), the digit being the largest of all the numbers whose product does not exceed `REM`. -/
def Obligations.StageDigitCountsComparisons : Prop :=
  ∀ (t : Tables) (d : Datapath) (p : Fin 12), t.RomOk →
    let m := (encodeStage t d p).dig[p.val].toNat
    (p.val ≤ 10 →
      m = ((List.range 55).filter fun k => decide ((k + 1) * 56 ^ p.val ≤ d.rem.toNat)).length ∧
      ∀ k, 1 ≤ k → k ≤ 55 → (k * 56 ^ p.val ≤ d.rem.toNat ↔ k ≤ m)) ∧
    (p.val = 11 → ∀ k, k * 56 ^ 11 ≤ d.rem.toNat ↔ k ≤ m)

/-- R69: every stage subtracts its digit's threshold from `REM`, never with a borrow, and writes no other digit. -/
def Obligations.RemainderUpdateNeverBorrows : Prop :=
  ∀ (t : Tables) (d : Datapath) (p : Fin 12), t.RomOk →
    let m := (encodeStage t d p).dig[p.val].toNat
    m * 56 ^ p.val ≤ d.rem.toNat ∧ (encodeStage t d p).rem.toNat = d.rem.toNat - m * 56 ^ p.val ∧
    (∀ q : Fin 12, q ≠ p → (encodeStage t d p).dig[q.val] = d.dig[q.val]) ∧
    (encodeStage t d p).acc = d.acc ∧ (encodeStage t d p).inv = d.inv ∧ (encodeStage t d p).ovf = d.ovf ∧
    (encodeStage t d p).nodelim = d.nodelim

/-- What the pipeline computes, the closed form the spec derives in R70: every digit is `(v div 56^p) mod 56`, `REM` ends
at 0, `DIG[11]` is 1 exactly when `v >= 56^11`, the weighted digits sum to `v`, and no other digits do. -/
def Obligations.PipelineComputesBase56Digits : Prop :=
  ∀ (t : Tables) (v : Word) (d : Datapath), t.RomOk →
    let e := encodePipeline t v d
    (∀ p : Fin 12, e.dig[p.val].toNat = v.toNat / 56 ^ p.val % 56) ∧
    e.rem = 0#64 ∧
    (e.dig[11].toNat = if 56 ^ 11 ≤ v.toNat then 1 else 0) ∧
    ((List.finRange 12).map fun p => e.dig[p.val].toNat * 56 ^ p.val).sum = v.toNat ∧
    (∀ f : Fin 12 → Nat, (∀ p, f p ≤ 55) → ((List.finRange 12).map fun p => f p * 56 ^ p.val).sum = v.toNat →
      ∀ p, f p = e.dig[p.val].toNat)

/-- `ENC` completes on every value in every state the invariant allows, with the base-56 string of the value (R73), in the
closed forms the spec derives: the digits `(v div 56^p) mod 56` (R70), 12 symbols when padded, and otherwise the last `L`
of them, "where `L` is the least number `>= 1` with `value < 56^L`" (R75). -/
def Obligations.EncAnswersBase56String : Prop :=
  (∀ (s : State) (pad : Bool) (v : Word), s.Inv → s.ready = true →
    exec (.enc pad v) s = .next (s.complete (.okString
      (if pad then Reference.paddedString s.tables.sym v.toNat else Reference.unpaddedString s.tables.sym v.toNat)))) ∧
  (∀ (a : Config.Alphabet) (v : Word),
    let l := (Reference.unpaddedString a v.toNat).length
    1 ≤ l ∧ v.toNat < 56 ^ l ∧ ∀ n, 1 ≤ n → n < l → 56 ^ n ≤ v.toNat)

/-- R74: the value 0 gives a single "0" unpadded and twelve "0" padded. -/
def Obligations.EncOfZero : Prop :=
  ∀ s : State, s.Inv → s.ready = true →
    exec (.enc false 0#64) s = .next (s.complete (.okString [Config.zeroSym])) ∧
    exec (.enc true 0#64) s = .next (s.complete (.okString (List.replicate 12 Config.zeroSym)))

/-- R75: the strip rule on a 12-symbol string: with `z` leading zero symbols, the last symbol alone when `z = 12`, and
otherwise what follows them, which begins with another symbol; the unpadded `ENC` result is the padded one so stripped. -/
def Obligations.StripLeavesOneSymbol : Prop :=
  (∀ (z : Nat) (rest : List Byte), z + rest.length = 12 → rest.head? ≠ some Config.zeroSym →
    strip (List.replicate z Config.zeroSym ++ rest) = (if z = 12 then [Config.zeroSym] else rest) ∧
    (strip (List.replicate z Config.zeroSym ++ rest)).length = max 1 (12 - z)) ∧
  (∀ (s : State) (v : Word), s.Inv → s.ready = true → ∃ s12, s12.length = 12 ∧
    exec (.enc true v) s = .next (s.complete (.okString s12)) ∧
    exec (.enc false v) s = .next (s.complete (.okString (strip s12))))

/-- R77, the padding invariant: a padded result has 12 symbols; an unpadded one has at least one, begins with "0" exactly
when the value is 0, and is then the single "0". -/
def Obligations.PaddingInvariant : Prop :=
  ∀ (s t : State) (v : Word), s.Inv → s.ready = true →
    (exec (.enc true v) s = .next t → ∃ str, t.responses = s.responses ++ [.okString str] ∧ str.length = 12) ∧
    (exec (.enc false v) s = .next t → ∃ c str, t.responses = s.responses ++ [.okString (c :: str)] ∧
      (c = Config.zeroSym ↔ v = 0#64) ∧ (v = 0#64 → str = []))

/-- R76, R105: `ENC` cannot fail, nor can an `ENCP` the block accepts: whatever the tables hold, the answer is a string (of
at most 12 symbols for `ENC`) and `ERR` is 0. -/
def Obligations.EncodeNeverFails : Prop :=
  ∀ s : State, s.ready = true →
    (∀ pad v, ∃ str, exec (.enc pad v) s = .next (s.complete (.okString str)) ∧ str.length ≤ 12 ∧
      (Response.okString str).errBits = 0#2) ∧
    (∀ pad v pfx, (Instr.encp pad v pfx).wellFormed s.caps = true →
      ∃ str, exec (.encp pad v pfx) s = .next (s.complete (.okString str)) ∧ (Response.okString str).errBits = 0#2)

/-- R78: `ENCP` completes for every value and every prefix within capacity that is free of the delimiter, with the prefix,
the delimiter and the string of padded `ENC`; a prefix within capacity that holds the delimiter is refused. -/
def Obligations.EncpAnswersPrefixedString : Prop :=
  ∀ (s : State) (pad : Bool) (v : Word) (pfx : List Byte), s.Inv → s.ready = true →
    s.caps.admitsPrefix pfx.length = true →
    (Config.delim ∉ pfx →
      ∃ s12, exec (.enc true v) s = .next (s.complete (.okString s12)) ∧
        exec (.encp pad v pfx) s = .next (s.complete (.okString (pfx ++ [Config.delim] ++ s12))) ∧
        (pfx ++ [Config.delim] ++ s12).length = pfx.length + 13) ∧
    (Config.delim ∈ pfx → exec (.encp pad v pfx) s = .refused .delimiterInPrefix)

/-- R80: an `ENCP` request whose prefix holds the delimiter is refused: no response, whatever the capacities. -/
def Obligations.EncpRefusesDelimiter : Prop :=
  ∀ (s : State) (pad : Bool) (v : Word) (pfx : List Byte), s.ready = true → 0x2D#8 ∈ pfx →
    ∃ q, exec (.encp pad v pfx) s = .refused q ∧ (s.caps.admitsPrefix pfx.length = true → q = .delimiterInPrefix)

/-- R79: `PAD` has no effect on `ENCP`, whose result always ends in twelve symbols. -/
def Obligations.EncpIgnoresPad : Prop :=
  ∀ (s : State) (v : Word) (pfx : List Byte),
    exec (.encp true v pfx) s = exec (.encp false v pfx) s ∧
    (s.Inv → s.ready = true → ∀ t pad, exec (.encp pad v pfx) s = .next t →
      ∃ s12, s12.length = 12 ∧ exec (.enc true v) s = .next (s.complete (.okString s12)) ∧
        t = s.complete (.okString (pfx ++ [Config.delim] ++ s12)))

/-! ## The decode path (41_decode.md) -/

/-- R86: normalisation to twelve symbols, of which the one at string index `k` carries digit position `11 - k`. -/
def Obligations.NormaliseToTwelveSymbols : Prop :=
  ∀ s : List Byte,
    (s.length ≤ 12 → normalise s = ([], List.replicate (12 - s.length) Config.zeroSym ++ s)) ∧
    (12 < s.length → (normalise s).1 ++ (normalise s).2 = s ∧ (normalise s).1.length = s.length - 12) ∧
    (normalise s).2.length = 12 ∧
    ∀ (t : Tables) (d : Datapath) (k : Fin 12) (c : Byte), (normalise s).2[k.val]? = some c →
      (loadDigits t (normalise s).2 d).dig[11 - k.val] = entryDigit (t.readVal c)

/-- R88: after any number of the twelve additions, most significant first, `ACC` is the exact sum of the products so far;
after the loop it is the weighted sum of all twelve digits, below `56^12`. -/
def Obligations.AccumulatorHoldsExactSum : Prop :=
  ∀ (t : Tables) (d : Datapath), t.RomOk → (∀ p : Fin 12, d.dig[p.val].toNat ≤ 55) →
    (∀ n, n ≤ 12 → (((positions.take n).foldl (accumulateStep t) { d with acc := 0#70 }).acc.toNat =
      ((positions.take n).map fun p => d.dig[p.val].toNat * 56 ^ p.val).sum)) ∧
    (accumulate t d).acc.toNat = ((List.finRange 12).map fun p => d.dig[p.val].toNat * 56 ^ p.val).sum ∧
    (accumulate t d).acc.toNat < 56 ^ 12

/-- The bound check as the spec derives it in R90(b), (c): the sum exceeds `MAX64` exactly when a bit above 63 is set, and
exactly when `DIG[11] >= 2`, or `DIG[11] = 1` and the low eleven digits exceed `MAX64 - 56^11`. -/
def Obligations.OverflowSeenAtPositionEleven : Prop :=
  ∀ (t : Tables) (d : Datapath), t.RomOk → (∀ p : Fin 12, d.dig[p.val].toNat ≤ 55) →
    (Config.max64 < (accumulate t d).acc ↔ (accumulate t d).acc.extractLsb' 64 6 ≠ 0#6) ∧
    (Config.max64 < (accumulate t d).acc ↔
      2 ≤ d.dig[11].toNat ∨ (d.dig[11].toNat = 1 ∧
        1461636684327157759 < ((List.finRange 11).map fun p => d.dig[p.val].toNat * 56 ^ p.val).sum))

/-- R92: `DEC` completes on every string within capacity: InvalidSymbol, Overflow, or the exact value; the exact value of
a string is that of all its symbols, excess ones included, and Overflow is exactly its exceeding `MAX64` (R94). -/
def Obligations.DecAnswersExactValue : Prop :=
  ∀ (s : State) (str : List Byte), s.Inv → s.ready = true → s.caps.admitsInput str.length = true →
    exec (.dec str) s = .next (s.complete (Reference.decodeAnswer s.tables.sym str))

/-- R93: the empty input decodes to 0. -/
def Obligations.DecOfEmptyIsZero : Prop :=
  ∀ s : State, s.Inv → s.ready = true → exec (.dec []) s = .next (s.complete (.okValue 0#64))

/-- What the spec derives in R100: leading zero symbols mean nothing, in any number (R94 beyond twelve symbols). -/
def Obligations.LeadingZerosMeanNothing : Prop :=
  ∀ (s : State) (n : Nat) (str : List Byte), s.Inv → s.ready = true →
    s.caps.admitsInput (n + str.length) = true → s.caps.admitsInput str.length = true →
    exec (.dec (List.replicate n Config.zeroSym ++ str)) s = exec (.dec str) s

/-- R94, the excess clause: among valid symbols, a symbol before the last twelve whose digit is not 0 is an Overflow. -/
def Obligations.ExcessSymbolOverflows : Prop :=
  ∀ (s : State) (pre : List Byte) (c : Byte) (post : List Byte), s.Inv → s.ready = true →
    s.caps.admitsInput (pre ++ c :: post).length = true → 12 ≤ post.length →
    (∀ b ∈ pre ++ c :: post, b ∈ s.tables.sym.toList) → c ≠ Config.zeroSym →
    exec (.dec (pre ++ c :: post)) s = .next (s.complete (.err .overflow))

/-- R96: `DECP` completes on every string within capacity: the prefix up to the first delimiter is discarded and the
remainder decoded. -/
def Obligations.DecpAnswersRemainder : Prop :=
  ∀ (s : State) (str : List Byte), s.Inv → s.ready = true → s.caps.admitsInput str.length = true →
    exec (.decp str) s = .next (s.complete (Reference.decodePrefixedAnswer s.tables.sym str))

/-- The corner cases the spec derives in R98: the prefix segment is never looked up, and `DECP` of `pre`, the first
delimiter and `rest` answers what `DEC` of `rest` answers, an empty remainder and a second delimiter included. -/
def Obligations.DecpDiscardsPrefix : Prop :=
  ∀ (s : State) (pre rest : List Byte), s.ready = true → Config.delim ∉ pre →
    s.caps.admitsInput (pre ++ Config.delim :: rest).length = true → s.caps.admitsInput rest.length = true →
    exec (.decp (pre ++ Config.delim :: rest)) s = exec (.dec rest) s

/-! ## Errors (60_exceptions.md) -/

/-- R57: the status byte: `ERR` in bits 1:0, zero above, with the codes of R101; it is 0 for every `ENC` and `ENCP`. -/
def Obligations.StatusByteCodes : Prop :=
  (∀ r : Response, r.stat.extractLsb' 2 6 = 0#6 ∧ r.stat.extractLsb' 0 2 = r.errBits) ∧
  (∀ str, (Response.okString str).stat = 0x00#8) ∧ (∀ v, (Response.okValue v).stat = 0x00#8) ∧
  (Response.err .invalidSymbol).stat = 0x01#8 ∧ (Response.err .malformedInput).stat = 0x02#8 ∧
  (Response.err .overflow).stat = 0x03#8 ∧
  (∀ (s t : State) (pad : Bool) (v : Word) (pfx : List Byte), s.ready = true →
    exec (.enc pad v) s = .next t ∨ exec (.encp pad v pfx) s = .next t →
    ∃ r, t.responses = s.responses ++ [r] ∧ r.stat = 0x00#8)

/-- R109: an error records its code and nothing else: it has no value and no string. -/
def Obligations.ErrorCarriesOnlyItsCode : Prop :=
  ∀ (e : CodecError), (Response.err e).value? = none ∧ (Response.err e).str? = none ∧
    ∀ e' : CodecError, (Response.err e).stat = (Response.err e').stat → e = e'

/-- R102: InvalidSymbol exactly when a byte of the string being decoded has an invalid entry: the whole input for `DEC`,
the remainder after the first delimiter for `DECP`. -/
def Obligations.InvalidSymbolRaised : Prop :=
  ∀ (s t : State) (str : List Byte), s.Inv → s.ready = true →
    (exec (.dec str) s = .next t →
      (t.responses = s.responses ++ [.err .invalidSymbol] ↔
        ∃ c ∈ str, entryValid (s.tables.readVal c) = false)) ∧
    (exec (.decp str) s = .next t →
      (t.responses = s.responses ++ [.err .invalidSymbol] ↔
        ∃ pre rest, str = pre ++ Config.delim :: rest ∧ Config.delim ∉ pre ∧
          ∃ c ∈ rest, entryValid (s.tables.readVal c) = false))

/-- R103: MalformedInput is raised by `DECP` alone, exactly when no byte of its input is the delimiter. -/
def Obligations.MalformedInputRaised : Prop :=
  ∀ (s t : State) (i : Instr), s.Inv → s.ready = true → exec i s = .next t →
    (t.responses = s.responses ++ [.err .malformedInput] ↔ ∃ str, i = .decp str ∧ Config.delim ∉ str)

/-- R104: Overflow exactly when the exact value of the string being decoded exceeds `MAX64`. -/
def Obligations.OverflowRaised : Prop :=
  ∀ (s t : State) (str : List Byte), s.Inv → s.ready = true →
    (exec (.dec str) s = .next t →
      (t.responses = s.responses ++ [.err .overflow] ↔
        ∃ n, Reference.value s.tables.sym str = some n ∧ 18446744073709551615 < n)) ∧
    (exec (.decp str) s = .next t →
      (t.responses = s.responses ++ [.err .overflow] ↔
        ∃ pre rest n, str = pre ++ Config.delim :: rest ∧ Config.delim ∉ pre ∧
          Reference.value s.tables.sym rest = some n ∧ 18446744073709551615 < n))

/-- R108: the response carries the first error that applies, in the order MalformedInput, InvalidSymbol, Overflow: by the
flags, and on the rule's own example, twelve bytes wrong in two ways: digit 2 at position 11 and an invalid last byte. -/
def Obligations.ErrorPriority : Prop :=
  (∀ d : Datapath, (d.nodelim = true → d.error? = some .malformedInput) ∧
    (d.nodelim = false → d.inv = true → d.error? = some .invalidSymbol) ∧
    (d.nodelim = false → d.inv = false → d.ovf = true → d.error? = some .overflow) ∧
    (d.nodelim = false → d.inv = false → d.ovf = false → d.error? = none)) ∧
  (∀ (s : State) (c : Byte), s.Inv → s.ready = true → c ∉ s.tables.sym.toList →
    exec (.dec (s.tables.sym[2] :: List.replicate 10 Config.zeroSym ++ [c])) s = .next (s.complete (.err .invalidSymbol)))

/-- R113: a step refuses exactly when the oldest pending request is taken and its header is illegal, its `ENCP` prefix
holds the delimiter, or its string is over capacity; each reason is given only where it applies, and with `READY = 0`
nothing is refused. Which of two reasons an `ENCP` gives is the model's (log 16) and is not stated. -/
def Obligations.StepRefusesExactly : Prop :=
  ∀ s : State,
    ((∃ q, step s = .refused q) ↔ s.ready = true ∧ ∃ r rest, s.pending = r :: rest ∧
      (6 ≤ r.hdr.toNat ∨
       (∃ pad v pfx, decode r = .ok (.encp pad v pfx) ∧
         (s.caps.admitsPrefix pfx.length = false ∨ Config.delim ∈ pfx)) ∨
       (∃ str, (decode r = .ok (.dec str) ∨ decode r = .ok (.decp str)) ∧ s.caps.admitsInput str.length = false))) ∧
    (∀ h, step s = .refused (.illegalHeader h) → ∃ r rest, s.pending = r :: rest ∧ r.hdr = h ∧ 6 ≤ h.toNat) ∧
    (step s = .refused .delimiterInPrefix → ∃ r rest pad v pfx, s.pending = r :: rest ∧
      decode r = .ok (.encp pad v pfx) ∧ Config.delim ∈ pfx) ∧
    (step s = .refused .stringTooLong → ∃ r rest, s.pending = r :: rest ∧
      ((∃ pad v pfx, decode r = .ok (.encp pad v pfx) ∧ s.caps.admitsPrefix pfx.length = false) ∨
       (∃ str, (decode r = .ok (.dec str) ∨ decode r = .ok (.decp str)) ∧ s.caps.admitsInput str.length = false)))

/-- What the spec derives in R48: no step ever forms a table address that does not exist, whatever the tables hold. -/
def Obligations.StepNeverFaults : Prop :=
  ∀ (s : State) (f : Fault), step s ≠ .fault f

/-! ## Whole-block rules -/

/-- The frame of the four operations: a transaction changes no table (every address of `SYM`, `VAL`, `POW` and `THR` reads
as before), not `READY`, not the capacities; it takes one request and appends one response, or, while held, changes
nothing (R119). That `draws` advances by one is the model's choice, a field of its own (log 7, DESIGN CHOICE). The datapath
registers hold free values between transactions (log 7), and nothing is said of them. -/
def Obligations.TransactionFrame : Prop :=
  ∀ (i : Instr) (s t : State), exec i s = .next t →
    t.tables = s.tables ∧
    (∀ d, t.tables.readSym d = s.tables.readSym d) ∧ (∀ c, t.tables.readVal c = s.tables.readVal c) ∧
    (∀ p, t.tables.readPow p = s.tables.readPow p) ∧ (∀ p m, t.tables.readThr p m = s.tables.readThr p m) ∧
    t.ready = s.ready ∧ t.caps = s.caps ∧
    (s.ready = false → t = s) ∧
    (s.ready = true → t.pending = s.pending.tail ∧ (∃ r, t.responses = s.responses ++ [r]) ∧ t.draws = s.draws + 1)

/-- R56: exactly one response for every accepted request, and none otherwise. -/
def Obligations.OneResponsePerAcceptedRequest : Prop :=
  ∀ s t : State, step s = .next t →
    (∃ q r, s.ready = true ∧ s.pending = q :: t.pending ∧ t.responses = s.responses ++ [r]) ∨
    (t.pending = s.pending ∧ t.responses = s.responses ∧ (s.ready = true → s.pending = []))

/-- R106: after an error response the block is in the state it is in after a success: `READY = 1`, the tables unchanged,
the next request executed as usual. -/
def Obligations.ErrorLeavesBlockReady : Prop :=
  ∀ (s t : State) (i : Instr) (e : CodecError), s.Inv → s.ready = true → exec i s = .next t →
    t.responses = s.responses ++ [.err e] →
    t = s.complete (.err e) ∧ t.ready = true ∧ t.tables = s.tables ∧ t.Inv ∧
    ∀ (q r : Request) (rest : List Request) (j : Instr), s.pending = q :: r :: rest → decode r = .ok j →
      step t = exec j t

/-- A response depends on its own request and the tables only (R21, R43): two blocks with the same tables and capacities
give it alike, whatever their registers hold, whatever came before and whatever waits. -/
def Obligations.ResponseDependsOnRequestOnly : Prop :=
  ∀ (i : Instr) (s s' : State), s.ready = true → s'.ready = true → s.tables = s'.tables → s.caps = s'.caps →
    (∃ r, exec i s = .next (s.complete r) ∧ exec i s' = .next (s'.complete r)) ∨
    (∃ q, exec i s = .refused q ∧ exec i s' = .refused q)

/-- The block refines the pure function of R13: with `READY = 1` and legal requests pending, as many steps as requests
answer them all, in the order they were presented (R112), each with the reference answer of its own request, and leave
the tables as they were. -/
def Obligations.PendingRequestsAnsweredInOrder : Prop :=
  ∀ (s : State) (is : List Instr), s.Inv → s.ready = true → s.pending.map decode = is.map .ok →
    (∀ i ∈ is, i.wellFormed s.caps = true) →
    ∃ t, core.run is.length s = .next t ∧ t.pending = [] ∧
      t.responses = s.responses ++ is.map (Reference.answer s.tables.sym) ∧
      t.tables = s.tables ∧ t.ready = true ∧ t.caps = s.caps

/-- R83: the round trips. `DEC` of the string of `ENC v, pad` answers `v`, for every 64-bit `v` (the largest included) and
both values of `pad`; `DECP` of the string of `ENCP v, prefix` answers `v`, for every prefix free of the delimiter, within
the capacities. -/
def Obligations.RoundTrip : Prop :=
  ∀ (s : State) (v : Word) (pad : Bool), s.Inv → s.ready = true →
    (∃ str t, exec (.enc pad v) s = .next t ∧ t.responses = s.responses ++ [.okString str] ∧
      exec (.dec str) t = .next (t.complete (.okValue v))) ∧
    (∀ pfx : List Byte, Config.delim ∉ pfx → s.caps.admitsPrefix pfx.length = true →
      s.caps.admitsInput (pfx.length + 13) = true →
      ∃ str t, exec (.encp pad v pfx) s = .next t ∧ t.responses = s.responses ++ [.okString str] ∧
        exec (.decp str) t = .next (t.complete (.okValue v)))

/-- The other direction, as the spec derives it in R99: for a string of exactly 12 symbols that decodes without an error,
padded `ENC` of its value answers the string. -/
def Obligations.ReencodingPaddedString : Prop :=
  ∀ (s t : State) (str : List Byte) (v : Word), s.Inv → s.ready = true → str.length = 12 →
    exec (.dec str) s = .next t → t.responses = s.responses ++ [.okValue v] →
    exec (.enc true v) t = .next (t.complete (.okString str))
end

