-- ==== Sys2Proof/Laws/State.lean ====
section
/-! SUPPORT. What each update of State leaves in each field: one lemma per field and update. -/

namespace Sys2Proof.Machine

variable (s : State) (r : Response) (q : Request)

@[simp] theorem complete_tables : (s.complete r).tables = s.tables := rfl
@[simp] theorem complete_caps : (s.complete r).caps = s.caps := rfl
@[simp] theorem complete_ready : (s.complete r).ready = s.ready := rfl
@[simp] theorem complete_pending : (s.complete r).pending = s.pending.tail := rfl
@[simp] theorem complete_responses : (s.complete r).responses = s.responses ++ [r] := rfl
@[simp] theorem complete_dp : (s.complete r).dp = Datapath.between s.draws := rfl
@[simp] theorem complete_draws : (s.complete r).draws = s.draws + 1 := rfl

@[simp] theorem initialise_sym : s.initialise.tables.sym = s.tables.sym := by simp only [State.initialise]
@[simp] theorem initialise_val : s.initialise.tables.val = buildVal s.tables.sym := by simp only [State.initialise]
@[simp] theorem initialise_pow : s.initialise.tables.pow = s.tables.pow := by simp only [State.initialise]
@[simp] theorem initialise_thr : s.initialise.tables.thr = s.tables.thr := by simp only [State.initialise]
@[simp] theorem initialise_thrTop : s.initialise.tables.thrTop = s.tables.thrTop := by simp only [State.initialise]
@[simp] theorem initialise_caps : s.initialise.caps = s.caps := by simp only [State.initialise]
@[simp] theorem initialise_ready : s.initialise.ready = true := by simp only [State.initialise]
@[simp] theorem initialise_pending : s.initialise.pending = s.pending := by simp only [State.initialise]
@[simp] theorem initialise_responses : s.initialise.responses = s.responses := by simp only [State.initialise]
@[simp] theorem initialise_dp : s.initialise.dp = s.dp := by simp only [State.initialise]
@[simp] theorem initialise_draws : s.initialise.draws = s.draws := by simp only [State.initialise]

@[simp] theorem hostReset_sym : s.hostReset.tables.sym = s.tables.sym := by simp only [State.hostReset, State.resetWith, Tables.reset]
@[simp] theorem hostReset_val : s.hostReset.tables.val = Vector.replicate 256 0#7 := by simp only [State.hostReset, State.resetWith, Tables.reset]
@[simp] theorem hostReset_pow : s.hostReset.tables.pow = Config.powTable := by simp only [State.hostReset, State.resetWith, Tables.reset]
@[simp] theorem hostReset_thr : s.hostReset.tables.thr = Config.thrTable := by simp only [State.hostReset, State.resetWith, Tables.reset]
@[simp] theorem hostReset_thrTop : s.hostReset.tables.thrTop = Config.thrTopTable := by simp only [State.hostReset, State.resetWith, Tables.reset]
@[simp] theorem hostReset_caps : s.hostReset.caps = s.caps := by simp only [State.hostReset, State.resetWith, Tables.reset]
@[simp] theorem hostReset_ready : s.hostReset.ready = false := by simp only [State.hostReset, State.resetWith, Tables.reset]
@[simp] theorem hostReset_pending : s.hostReset.pending = [] := by simp only [State.hostReset, State.resetWith, Tables.reset]
@[simp] theorem hostReset_responses : s.hostReset.responses = [] := by simp only [State.hostReset, State.resetWith, Tables.reset]
@[simp] theorem hostReset_dp : s.hostReset.dp = Datapath.reset := by simp only [State.hostReset, State.resetWith, Tables.reset]
@[simp] theorem hostReset_draws : s.hostReset.draws = s.draws := by simp only [State.hostReset, State.resetWith, Tables.reset]

variable (t : Tables) (d : Datapath) (p : Fin 12)

@[simp] theorem encodeStage_rem : (encodeStage t d p).rem = d.rem - (stageDigit t p d.rem).2 := rfl
@[simp] theorem encodeStage_dig : (encodeStage t d p).dig = d.dig.set p.val (stageDigit t p d.rem).1 := rfl
@[simp] theorem encodeStage_pos : (encodeStage t d p).pos = BitVec.ofNat 4 p.val := rfl
@[simp] theorem encodeStage_acc : (encodeStage t d p).acc = d.acc := rfl
@[simp] theorem encodeStage_inv : (encodeStage t d p).inv = d.inv := rfl
@[simp] theorem encodeStage_ovf : (encodeStage t d p).ovf = d.ovf := rfl
@[simp] theorem encodeStage_nodelim : (encodeStage t d p).nodelim = d.nodelim := rfl

@[simp] theorem accumulateStep_rem : (accumulateStep t d p).rem = d.rem := rfl
@[simp] theorem accumulateStep_dig : (accumulateStep t d p).dig = d.dig := rfl
@[simp] theorem accumulateStep_pos : (accumulateStep t d p).pos = d.pos := rfl
@[simp] theorem accumulateStep_acc :
    (accumulateStep t d p).acc = d.acc + zextAcc d.dig[p.val] * zextAcc (t.readPow p) := rfl
@[simp] theorem accumulateStep_inv : (accumulateStep t d p).inv = d.inv := rfl
@[simp] theorem accumulateStep_ovf : (accumulateStep t d p).ovf = d.ovf := rfl
@[simp] theorem accumulateStep_nodelim : (accumulateStep t d p).nodelim = d.nodelim := rfl

@[simp] theorem clear_rem : d.clear.rem = d.rem := rfl
@[simp] theorem clear_dig : d.clear.dig = d.dig := rfl
@[simp] theorem clear_pos : d.clear.pos = d.pos := rfl
@[simp] theorem clear_acc : d.clear.acc = 0#70 := rfl
@[simp] theorem clear_inv : d.clear.inv = false := rfl
@[simp] theorem clear_ovf : d.clear.ovf = false := rfl
@[simp] theorem clear_nodelim : d.clear.nodelim = false := rfl

end Sys2Proof.Machine
end

