-- ==== Sys2Proof/Laws/Step.lean ====
section
/-! SUPPORT. What one execution and one step can do, said once: every frame and invariant follows from these. -/

namespace Sys2Proof.Machine

theorem whenReady_of_ready {s : State} (h : s.ready = true) (k : Host.Outcome State Fault Refusal) :
    s.whenReady k = k := by simp [State.whenReady, h]

theorem whenReady_of_not_ready {s : State} (h : s.ready = false) (k : Host.Outcome State Fault Refusal) :
    s.whenReady k = .next s := by simp [State.whenReady, h]

/-- A transaction that answers a string ends by completing it, or faults; it never refuses. -/
theorem answerEncoded_cases (s : State) (v : Word) (f : List Byte → List Byte) :
    (∃ s12, encodePadded s.tables v s.dp = some s12 ∧ s.answerEncoded v f = .next (s.complete (.okString (f s12)))) ∨
    (encodePadded s.tables v s.dp = none ∧ s.answerEncoded v f = .fault .symAddress) := by
  unfold State.answerEncoded
  cases encodePadded s.tables v s.dp <;> simp

/-- A decode transaction completes with its response, or is refused for its length. -/
theorem answerDecoded_cases (s : State) (len : Nat) (r : Response) :
    (s.caps.admitsInput len = true ∧ s.answerDecoded len r = .next (s.complete r)) ∨
    (s.caps.admitsInput len = false ∧ s.answerDecoded len r = .refused .stringTooLong) := by
  unfold State.answerDecoded
  cases s.caps.admitsInput len <;> simp

/-- All an execution that answers a next state can have done: held the request, or completed one transaction. -/
theorem exec_next_cases {i : Instr} {s t : State} (h : exec i s = .next t) :
    (s.ready = false ∧ t = s) ∨ (s.ready = true ∧ ∃ r, t = s.complete r) := by
  cases hr : s.ready with
  | false =>
    left
    cases i <;>
      simp only [exec, execEnc, execEncp, execDec, execDecp, whenReady_of_not_ready hr, Host.Outcome.next.injEq] at h <;>
      exact ⟨rfl, h.symm⟩
  | true =>
    refine .inr ⟨rfl, ?_⟩
    cases i with
    | enc pad v =>
      simp only [exec, execEnc, whenReady_of_ready hr] at h
      obtain ⟨s12, -, h1⟩ | ⟨-, h1⟩ := answerEncoded_cases s v (fun s12 => if pad then s12 else strip s12)
      · exact ⟨_, by rw [h1] at h; exact (Host.Outcome.next.inj h).symm⟩
      · rw [h1] at h; cases h
    | encp pad v pfx =>
      simp only [exec, execEncp, whenReady_of_ready hr] at h
      split at h
      · cases h
      · split at h
        · cases h
        · obtain ⟨s12, -, h1⟩ | ⟨-, h1⟩ := answerEncoded_cases s v (fun s12 => pfx ++ [Config.delim] ++ s12)
          · exact ⟨_, by rw [h1] at h; exact (Host.Outcome.next.inj h).symm⟩
          · rw [h1] at h; cases h
    | dec str =>
      simp only [exec, execDec, whenReady_of_ready hr] at h
      obtain ⟨-, h1⟩ | ⟨-, h1⟩ := answerDecoded_cases s str.length (decodeString s.tables str s.dp.clear).2
      · exact ⟨_, by rw [h1] at h; exact (Host.Outcome.next.inj h).symm⟩
      · rw [h1] at h; cases h
    | decp str =>
      simp only [exec, execDecp, whenReady_of_ready hr] at h
      obtain ⟨-, h1⟩ | ⟨-, h1⟩ := answerDecoded_cases s str.length (decodePrefixed s.tables str s.dp.clear).2
      · exact ⟨_, by rw [h1] at h; exact (Host.Outcome.next.inj h).symm⟩
      · rw [h1] at h; cases h

theorem step_of_not_ready {s : State} (h : s.ready = false) : step s = .next s.initialise := by simp [step, agentStep, h]

theorem step_of_idle {s : State} (h : s.ready = true) (hp : s.pending = []) : step s = .next s := by
  simp [step, agentStep, h, hp]

/-- With `READY = 1` a step takes the oldest pending request. -/
theorem step_of_pending {s : State} {q : Request} {rest : List Request} (h : s.ready = true) (hp : s.pending = q :: rest) :
    step s = takeRequest q s := by simp [step, agentStep, h, hp]

/-- All a step that answers a next state can have done: the initialiser's step, nothing (no request pending), or the end
of one transaction. -/
theorem step_next_cases {s t : State} (h : step s = .next t) :
    (s.ready = false ∧ t = s.initialise) ∨ (s.ready = true ∧ s.pending = [] ∧ t = s) ∨
    (s.ready = true ∧ ∃ q rest i r, s.pending = q :: rest ∧ decode q = .ok i ∧ exec i s = .next t ∧ t = s.complete r) := by
  cases hr : s.ready with
  | false => exact .inl ⟨rfl, by rw [step_of_not_ready hr] at h; exact (Host.Outcome.next.inj h).symm⟩
  | true =>
    right
    cases hp : s.pending with
    | nil => exact .inl ⟨rfl, rfl, by rw [step_of_idle hr hp] at h; exact (Host.Outcome.next.inj h).symm⟩
    | cons q rest =>
      simp only [step, agentStep, takeRequest, hr, hp, if_true] at h
      cases hd : decode q with
      | error e => cases e; simp [hd] at h
      | ok i =>
        simp only [hd] at h
        obtain ⟨h0, -⟩ | ⟨-, r, ht⟩ := exec_next_cases h
        · rw [hr] at h0; cases h0
        · exact .inr ⟨rfl, q, rest, i, r, rfl, hd, h, ht⟩

/-- A run of `k + 1` steps is a step and then a run of `k`. -/
theorem run_succ_of_next {s s' : State} (k : Nat) (h : step s = .next s') :
    core.run (k + 1) s = core.run k s' := by
  have h' : core.step s = .next s' := h
  simp only [Host.Core.run, h']

end Sys2Proof.Machine
end

