-- ==== Sys2Proof/Laws/Tables.lean ====
section
/-! SUPPORT. What the tables hold: entries of `VAL`, the table the initialiser builds, the powers and the thresholds. -/

namespace Sys2Proof.Machine

@[simp] theorem entryValid_validEntry (d : Digit) : entryValid (validEntry d) = true := by
  revert d; decide

@[simp] theorem entryDigit_validEntry (d : Digit) : entryDigit (validEntry d) = d := by
  revert d; decide

@[simp] theorem entryValid_invalidEntry : entryValid invalidEntry = false := by decide

@[simp] theorem entryDigit_invalidEntry : entryDigit invalidEntry = 0#6 := by decide

/-- A write of `VAL` seen at the address written and at any other. -/
theorem writeVal_get (v : Vector ValEntry 256) (b c : Byte) (e : ValEntry) :
    (writeVal v b e)[c.toNat]'c.isLt = if b = c then e else v[c.toNat]'c.isLt := by
  by_cases h : b = c
  · subst h; simp [writeVal]
  · have : b.toNat ≠ c.toNat := fun hn => h (BitVec.eq_of_toNat_eq hn)
    simp [writeVal, h, this]

/-- The initialiser's writes leave a code alone that no listed digit has as its symbol. -/
theorem buildVal_fold_other (a : Config.Alphabet) (c : Byte) :
    ∀ (l : List (Fin 56)) (v : Vector ValEntry 256), (∀ d ∈ l, a[d.val] ≠ c) →
      (l.foldl (fun v d => writeVal v a[d.val] (validEntry (BitVec.ofNat 6 d.val))) v)[c.toNat]'c.isLt
        = v[c.toNat]'c.isLt
  | [], v, _ => rfl
  | d :: l, v, h => by
    rw [List.foldl_cons, buildVal_fold_other a c l _ (fun e he => h e (List.mem_cons_of_mem _ he)), writeVal_get,
      if_neg (h d List.mem_cons_self)]

/-- The initialiser's writes leave `valid(d)` at the symbol of a listed digit whose symbol no other digit has. -/
theorem buildVal_fold_self (a : Config.Alphabet) (d : Fin 56) (hinj : ∀ e : Fin 56, a[e.val] = a[d.val] → e = d) :
    ∀ (l : List (Fin 56)) (v : Vector ValEntry 256), d ∈ l →
      (l.foldl (fun v d => writeVal v a[d.val] (validEntry (BitVec.ofNat 6 d.val))) v)[(a[d.val]).toNat]'(a[d.val]).isLt
        = validEntry (BitVec.ofNat 6 d.val)
  | [], _, h => by cases h
  | e :: l, v, h => by
    rw [List.foldl_cons]
    by_cases hd : d ∈ l
    · exact buildVal_fold_self a d hinj l _ hd
    · have hed : e = d := by
        cases h with
        | head => rfl
        | tail _ h => exact absurd h hd
      subst hed
      rw [buildVal_fold_other a _ l _ (fun f hf hfe => hd (hinj f hfe ▸ hf)), writeVal_get, if_pos rfl]

theorem alphabet_injective {a : Config.Alphabet} (h : a.Distinct) (d e : Fin 56) (hde : a[d.val] = a[e.val]) : d = e := by
  have hd : d.val < a.toList.length := by simp
  have he : e.val < a.toList.length := by simp
  have := (List.Nodup.getElem_inj_iff h (hi := hd) (hj := he)).mp (by simpa using hde)
  exact Fin.ext this

theorem mem_alphabet {a : Config.Alphabet} {c : Byte} : c ∈ a.toList ↔ ∃ d : Fin 56, a[d.val] = c := by
  constructor
  · intro h
    obtain ⟨i, hi, rfl⟩ := List.getElem_of_mem h
    exact ⟨⟨i, by simpa using hi⟩, by simp⟩
  · rintro ⟨d, rfl⟩
    simp

theorem initialise_readVal (s : State) (c : Byte) :
    s.initialise.tables.readVal c = (buildVal s.tables.sym)[c.toNat]'c.isLt := by
  simp only [Tables.readVal, initialise_val]

/-- The initialisation step makes `VAL` the inverse of `SYM` when the 56 codes are distinct (10_state.md R17). -/
theorem initialise_valInverse {s : State} (h : Config.Alphabet.Distinct s.tables.sym) :
    s.initialise.tables.ValInverse := by
  simp only [Tables.ValInverse, initialise_readVal, initialise_sym]
  constructor
  · intro d
    exact buildVal_fold_self s.tables.sym d (fun e he => alphabet_injective h e d he) _ _ (List.mem_finRange d)
  · intro c hc
    have := buildVal_fold_other s.tables.sym c (List.finRange 56) (Vector.replicate 256 invalidEntry)
      (fun d _ hd => hc (mem_alphabet.mpr ⟨d, hd⟩))
    rw [buildVal, this]
    simp

/-- The initialisation step leaves the read-only tables, so they hold their constants after it exactly when before. -/
theorem initialise_romOk (s : State) : s.initialise.tables.RomOk ↔ s.tables.RomOk := by
  simp only [Tables.RomOk, initialise_sym, initialise_pow, initialise_thr, initialise_thrTop]

/-- The default alphabet meets the five constraints (10_state.md R15). -/
theorem alphabetA0_admissible : Config.Alphabet.Admissible Config.alphabetA0 := by decide +kernel

/-- Every power is exact in 64 bits (10_state.md R18). -/
theorem powTable_toNat (p : Fin 12) : (Config.powTable[p.val]).toNat = 56 ^ p.val := by
  revert p; decide

/-- Every threshold of positions 0..10 is exact in 64 bits (10_state.md R19). -/
theorem thrTable_toNat (p : Fin 11) (m : Fin 56) : (Config.thrTable[p.val][m.val]).toNat = m.val * 56 ^ p.val := by
  have hp : (56 : Nat) ^ p.val ≤ 56 ^ 10 := Nat.pow_le_pow_right (by decide) (by omega)
  have hm : m.val * 56 ^ p.val ≤ 55 * 56 ^ 10 := Nat.mul_le_mul (by omega) hp
  have : m.val * 56 ^ p.val < 2 ^ 64 := by omega
  simp only [Config.thrTable, Config.radix, Vector.getElem_ofFn, BitVec.toNat_ofNat]
  exact Nat.mod_eq_of_lt this

theorem thrTopTable_toNat (m : Fin 2) : (Config.thrTopTable[m.val]).toNat = m.val * 56 ^ 11 := by
  revert m; decide

end Sys2Proof.Machine
end

