-- ==== Sys2Proof/Laws/Decode.lean ====
section
/-! SUPPORT. What the decode path's operations do: normalisation, the flags, the digits loaded, the weighted sum, the split
at the first delimiter. -/

namespace Sys2Proof.Machine

/-- Normalisation gives twelve symbols, and the string with its padding is the excess followed by them
(41_decode.md R86). -/
theorem normalise_spec (s : List Byte) :
    (normalise s).2.length = 12 ∧
    (normalise s).1 ++ (normalise s).2 = List.replicate (12 - s.length) Config.zeroSym ++ s := by
  unfold normalise
  split
  · rename_i h
    simp only [List.length_append, List.length_replicate, List.nil_append, and_true]
    omega
  · rename_i h
    have : 12 - s.length = 0 := by omega
    simp only [List.length_drop, List.take_append_drop, this, List.replicate_zero, List.nil_append, and_true]
    omega

/-- `INV` is set exactly when a byte is invalid; nothing else changes (41_decode.md R87). -/
theorem flagInvalid_spec (t : Tables) (s : List Byte) (d : Datapath) :
    d.flagInvalid t s = { d with inv := d.inv || s.any (fun c => !entryValid (t.readVal c)) } := by
  unfold Datapath.flagInvalid
  induction s generalizing d with
  | nil => simp
  | cons c cs ih =>
    rw [List.foldl_cons, ih]
    cases h : entryValid (t.readVal c) <;> simp [h]

/-- `OVF` is set exactly when the sum exceeds `MAX64` or an excess digit is not 0; nothing else changes
(41_decode.md R89). -/
theorem flagOverflow_spec (t : Tables) (x : List Byte) (d : Datapath) :
    d.flagOverflow t x =
      { d with ovf := d.ovf || decide (Config.max64 < d.acc) || x.any (fun c => entryDigit (t.readVal c) != 0#6) } := by
  unfold Datapath.flagOverflow
  by_cases h : Config.max64 < d.acc <;> cases x.any (fun c => entryDigit (t.readVal c) != 0#6) <;> simp [h]

theorem flagNoDelim_spec (d : Datapath) (rest : Option (List Byte)) :
    d.flagNoDelim rest = { d with nodelim := d.nodelim || rest.isNone } := by
  cases rest <;> simp [Datapath.flagNoDelim]

/-- Which error the flags report (60_exceptions.md R108). -/
theorem error_none_iff (d : Datapath) : d.error? = none ↔ d.nodelim = false ∧ d.inv = false ∧ d.ovf = false := by
  unfold Datapath.error?
  cases d.nodelim <;> cases d.inv <;> cases d.ovf <;> simp

/-- The digit loaded for each position: that of the symbol at string index `11 - p` (41_decode.md R87). -/
theorem loadDigits_dig (t : Tables) (t12 : List Byte) (h : t12.length = 12) (d : Datapath) (p : Fin 12) :
    (loadDigits t t12 d).dig[p.val] = entryDigit (t.readVal (t12[11 - p.val]'(by omega))) := by
  match t12, h with
  | [_, _, _, _, _, _, _, _, _, _, _, _], _ =>
    revert p
    simp [Fin.forall_fin_succ, loadDigits, positions]

/-- Loading the digits changes only the digit registers. -/
theorem loadDigits_frame (t : Tables) (t12 : List Byte) (d : Datapath) :
    loadDigits t t12 d = { d with dig := (loadDigits t t12 d).dig } := by
  unfold loadDigits
  generalize positions.zip t12 = l
  induction l generalizing d with
  | nil => rfl
  | cons x l ih => rw [List.foldl_cons, ih]

/-- The sum of a list of positions, each digit by its weight, added to what the accumulator held, when it fits in 70 bits
(41_decode.md R88, R90). -/
theorem accumulate_fold {t : Tables} (ht : t.pow = Config.powTable) :
    ∀ (l : List (Fin 12)) (d : Datapath),
      d.acc.toNat + (l.map fun p => d.dig[p.val].toNat * 56 ^ p.val).sum < 2 ^ 70 →
      (l.foldl (accumulateStep t) d).acc.toNat = d.acc.toNat + (l.map fun p => d.dig[p.val].toNat * 56 ^ p.val).sum
  | [], d, _ => by simp
  | p :: l, d, h => by
    simp only [List.map_cons, List.sum_cons] at h
    have hp : (t.readPow p).toNat = 56 ^ p.val := by rw [Tables.readPow]; simp only [ht]; exact powTable_toNat p
    have hd : (zextAcc d.dig[p.val]).toNat = d.dig[p.val].toNat := by
      simp only [zextAcc, BitVec.toNat_setWidth]
      exact Nat.mod_eq_of_lt (Nat.lt_of_lt_of_le d.dig[p.val].isLt (by decide))
    have hw : (zextAcc (t.readPow p)).toNat = 56 ^ p.val := by
      simp only [zextAcc, BitVec.toNat_setWidth, hp]
      exact Nat.mod_eq_of_lt (Nat.lt_of_le_of_lt (Nat.pow_le_pow_right (by decide) (by omega : p.val ≤ 11)) (by decide))
    have hacc : (accumulateStep t d p).acc.toNat = d.acc.toNat + d.dig[p.val].toNat * 56 ^ p.val := by
      rw [accumulateStep_acc, BitVec.toNat_add, BitVec.toNat_mul, hd, hw, Nat.add_mod_mod]
      exact Nat.mod_eq_of_lt (by omega)
    rw [List.foldl_cons, accumulate_fold ht l (accumulateStep t d p) (by rw [hacc, accumulateStep_dig]; omega), hacc]
    simp only [accumulateStep_dig, List.map_cons, List.sum_cons]
    omega

/-- `ACC` after the loop is the exact weighted sum of the twelve digits (41_decode.md R88). -/
theorem accumulate_spec {t : Tables} (ht : t.pow = Config.powTable) (d : Datapath) :
    (accumulate t d).acc.toNat = (positions.map fun p => d.dig[p.val].toNat * 56 ^ p.val).sum := by
  have hle : (positions.map fun p => d.dig[p.val].toNat * 56 ^ p.val).sum ≤
      (positions.map fun p => 63 * 56 ^ p.val).sum :=
    List.sum_le_sum fun p _ => Nat.mul_le_mul_right _ (Nat.le_of_lt_succ d.dig[p.val].isLt)
  have hlt := Nat.lt_of_le_of_lt hle (by decide : (positions.map fun p => 63 * 56 ^ p.val).sum < 2 ^ 70)
  unfold accumulate
  rw [accumulate_fold ht positions { d with acc := 0#70 } (by simpa using hlt)]
  simp

/-- The weighted sum changes only the accumulator. -/
theorem accumulate_frame (t : Tables) (d : Datapath) : accumulate t d = { d with acc := (accumulate t d).acc } := by
  have h : ∀ (l : List (Fin 12)) (d : Datapath),
      l.foldl (accumulateStep t) d = { d with acc := (l.foldl (accumulateStep t) d).acc } := by
    intro l
    induction l with
    | nil => intro d; rfl
    | cons p l ih => intro d; rw [List.foldl_cons, ih]; rfl
  unfold accumulate
  rw [h]

/-- Everything after the first delimiter (41_decode.md R96). -/
theorem afterDelim_none_iff (s : List Byte) : afterDelim s = none ↔ Config.delim ∉ s := by
  induction s with
  | nil => simp [afterDelim]
  | cons c cs ih =>
    rw [afterDelim]
    split
    · rename_i h; simp [h]
    · rename_i h; rw [ih, List.mem_cons, not_or]; exact ⟨fun hm => ⟨fun he => h he.symm, hm⟩, And.right⟩

theorem afterDelim_append (pre rest : List Byte) (h : Config.delim ∉ pre) :
    afterDelim (pre ++ Config.delim :: rest) = some rest := by
  induction pre with
  | nil => simp [afterDelim]
  | cons c cs ih =>
    rw [List.mem_cons, not_or] at h
    rw [List.cons_append, afterDelim, if_neg (fun he => h.1 he.symm), ih h.2]

end Sys2Proof.Machine
end

