-- ==== Sys2Proof/Laws/Encode.lean ====
section
/-! SUPPORT. What the encode path's operations do: the comparison of a stage, one stage, symbol emission, the strip. -/

namespace Sys2Proof.Machine

/-- The scan finds the largest multiplier up to `n` whose product does not exceed the remainder (40_encode.md R67). -/
theorem largestMultiplier_spec (row : Vector Word 56) (rem : Word) :
    ∀ (n : Nat) (h : n < 56), (largestMultiplier row rem n h).val ≤ n ∧
      ((largestMultiplier row rem n h).val ≠ 0 → row[(largestMultiplier row rem n h).val]'(largestMultiplier row rem n h).isLt ≤ rem) ∧
      ∀ (k : Nat) (hk : k ≤ n), (largestMultiplier row rem n h).val < k → ¬ row[k] ≤ rem
  | 0, h => by
    simp only [largestMultiplier]
    exact ⟨Nat.le_refl 0, fun h => absurd rfl h, fun k hk hlt => absurd hlt (Nat.not_lt.mpr hk)⟩
  | n + 1, h => by
    obtain ⟨h1, h2, h3⟩ := largestMultiplier_spec row rem n (Nat.lt_of_succ_lt h)
    simp only [largestMultiplier]
    split
    · rename_i hle
      exact ⟨Nat.le_refl _, fun _ => hle, fun k hk hlt => absurd hlt (Nat.not_lt.mpr hk)⟩
    · rename_i hle
      refine ⟨Nat.le_succ_of_le h1, h2, fun k hk hlt => ?_⟩
      rcases Nat.lt_or_eq_of_le hk with hk | rfl
      · exact h3 k (Nat.le_of_lt_succ hk) hlt
      · exact hle

/-- On the multiplier array's constants the comparison is a division (40_encode.md R70). -/
theorem largestMultiplier_thrTable (p : Fin 11) (rem : Word) (h : rem.toNat < 56 ^ (p.val + 1)) :
    (largestMultiplier Config.thrTable[p.val] rem 55 (by decide)).val = rem.toNat / 56 ^ p.val := by
  obtain ⟨h1, h2, h3⟩ := largestMultiplier_spec Config.thrTable[p.val] rem 55 (by decide)
  generalize largestMultiplier Config.thrTable[p.val] rem 55 _ = m at h1 h2 h3 ⊢
  have hpos : 0 < 56 ^ p.val := Nat.pow_pos (by decide)
  have hle : m.val * 56 ^ p.val ≤ rem.toNat := by
    by_cases hm : m.val = 0
    · simp [hm]
    · have := h2 hm
      rw [BitVec.le_def, thrTable_toNat] at this
      exact this
  have hlt : rem.toNat < (m.val + 1) * 56 ^ p.val := by
    by_cases hm : m.val = 55
    · rw [hm, Nat.mul_comm]
      simpa [Nat.pow_succ] using h
    · have hk : m.val + 1 < 56 := by omega
      have := h3 (m.val + 1) (by omega) (by omega)
      rw [BitVec.le_def, thrTable_toNat p ⟨m.val + 1, hk⟩] at this
      simpa using this
  exact (Nat.div_eq_of_lt_le hle hlt).symm

/-- One stage on the constant tables: its digit is the quotient, and it subtracts that multiple, without a borrow
(40_encode.md R67, R68, R69). -/
theorem stageDigit_spec {t : Tables} (ht : t.RomOk) (p : Fin 12) (rem : Word) (h : rem.toNat < 56 ^ (p.val + 1)) :
    (stageDigit t p rem).1.toNat = rem.toNat / 56 ^ p.val ∧
    (stageDigit t p rem).2.toNat = rem.toNat / 56 ^ p.val * 56 ^ p.val := by
  obtain ⟨-, hpow, hthr, htop⟩ := ht
  have hq : rem.toNat / 56 ^ p.val < 56 := by
    rw [Nat.div_lt_iff_lt_mul (Nat.pow_pos (by decide)), Nat.mul_comm]
    simpa [Nat.pow_succ] using h
  unfold stageDigit
  split
  · rename_i hp
    have hm := largestMultiplier_thrTable ⟨p.val, hp⟩ rem h
    simp only [hthr]
    refine ⟨?_, ?_⟩
    · simp only [hm, BitVec.toNat_ofNat]
      exact Nat.mod_eq_of_lt (Nat.lt_trans hq (by decide))
    · rw [thrTable_toNat ⟨p.val, hp⟩, hm]
  · have hp : p = 11 := Fin.ext (by have := p.isLt; simp; omega)
    subst hp
    have h11 : (t.readPow 11).toNat = 56 ^ 11 := by rw [Tables.readPow, hpow]; exact powTable_toNat 11
    have hrem := rem.isLt
    split
    · rename_i hle
      rw [BitVec.le_def, h11] at hle
      have : rem.toNat / 56 ^ 11 = 1 := Nat.div_eq_of_lt_le (by omega) (by omega)
      refine ⟨this.symm, ?_⟩
      simp only [htop]
      rw [show (Config.thrTopTable[1]).toNat = 1 * 56 ^ 11 from thrTopTable_toNat 1]
      exact congrArg (· * 56 ^ 11) this.symm
    · rename_i hle
      rw [BitVec.le_def, h11] at hle
      have : rem.toNat / 56 ^ 11 = 0 := Nat.div_eq_of_lt (by omega)
      refine ⟨this.symm, ?_⟩
      simp only [htop]
      rw [show (Config.thrTopTable[0]).toNat = 0 * 56 ^ 11 from thrTopTable_toNat 0]
      exact congrArg (· * 56 ^ 11) this.symm

/-- The remainder a stage leaves (40_encode.md R69, R70(a)). -/
theorem encodeStage_rem_spec {t : Tables} (ht : t.RomOk) (p : Fin 12) (d : Datapath)
    (h : d.rem.toNat < 56 ^ (p.val + 1)) : (encodeStage t d p).rem.toNat = d.rem.toNat % 56 ^ p.val := by
  have h2 := (stageDigit_spec ht p d.rem h).2
  have hdm := Nat.div_add_mod d.rem.toNat (56 ^ p.val)
  rw [Nat.mul_comm] at hdm
  rw [encodeStage_rem, BitVec.toNat_sub_of_le (by rw [BitVec.le_def, h2]; omega), h2]
  omega

/-- A stage's digit is at most 55 whatever the tables hold (20_memory.md R48). -/
theorem stageDigit_le (t : Tables) (p : Fin 12) (rem : Word) : (stageDigit t p rem).1.toNat ≤ 55 := by
  unfold stageDigit
  split
  · have := (largestMultiplier t.thr[p.val] rem 55 (by decide)).isLt
    simp only [BitVec.toNat_ofNat]
    omega
  · split
    · exact (by decide : (1#6 : Digit).toNat ≤ 55)
    · exact (by decide : (0#6 : Digit).toNat ≤ 55)

/-- The emission answers the symbols of the digits it is given, when each is an address of `SYM` (40_encode.md R72). -/
theorem emitSymbols_spec (t : Tables) (dig : Vector Digit 12) :
    ∀ (ps : List (Fin 12)), (∀ p ∈ ps, dig[p.val].toNat < 56) →
      emitSymbols t dig ps = some (ps.filterMap fun p => t.sym[dig[p.val].toNat]?)
  | [], _ => rfl
  | p :: ps, h => by
    have hp := h p List.mem_cons_self
    rw [emitSymbols, emitSymbols_spec t dig ps (fun q hq => h q (List.mem_cons_of_mem _ hq))]
    simp [Tables.readSym, hp]

theorem leadingZeros_le : ∀ s : List Byte, leadingZeros s ≤ s.length
  | [] => Nat.le_refl 0
  | c :: cs => by
    rw [leadingZeros]
    split
    · simpa using leadingZeros_le cs
    · exact Nat.zero_le _

/-- The leading zero symbols and what follows them (40_encode.md R75). -/
theorem leadingZeros_append (n : Nat) (c : Byte) (cs : List Byte) (h : c ≠ Config.zeroSym) :
    leadingZeros (List.replicate n Config.zeroSym ++ c :: cs) = n := by
  induction n with
  | zero => simp [leadingZeros, h]
  | succ n ih => simp [List.replicate_succ, leadingZeros, ih]

theorem leadingZeros_replicate (n : Nat) : leadingZeros (List.replicate n Config.zeroSym) = n := by
  induction n with
  | zero => rfl
  | succ n ih => simp [List.replicate_succ, leadingZeros, ih]

/-- The strip rule leaves at least one symbol of a string that has one (40_encode.md R75). -/
theorem strip_length (s : List Byte) (h : s ≠ []) : (strip s).length = max 1 (s.length - leadingZeros s) := by
  have hpos : 0 < s.length := List.length_pos_of_ne_nil h
  have hle := leadingZeros_le s
  unfold strip
  split <;> simp <;> omega

end Sys2Proof.Machine
end

