-- ==== Sys2Proof/Laws/PerInstr.lean ====
section
/-! SUPPORT. One lemma per operation: the header byte it is encoded with is one of the six legal ones, its reserved bits are
zero, and its `PAD` bit is clear but for `ENC` and `ENCP` (30_encoding.md R50, R52, R58). -/

namespace Sys2Proof.Laws

/-- A header byte built from a padding flag that only `ENC` and `ENCP` set is legal. -/
theorem mkHdr_legal : ∀ (pad : Bool) (op : BitVec 2), (pad = true → op = 0b00#2 ∨ op = 0b01#2) →
    (mkHdr pad op).toNat ≤ 5 ∧ hdrRsv (mkHdr pad op) = 0#5 ∧
    (hdrPad (mkHdr pad op) = true → hdrOp (mkHdr pad op) = 0b00#2 ∨ hdrOp (mkHdr pad op) = 0b01#2) := by decide

end Sys2Proof.Laws

namespace Sys2Proof.Laws.EncodedHeader

def Statement (i : Instr) : Prop :=
  (encode i).hdr.toNat ≤ 5 ∧ hdrRsv (encode i).hdr = 0#5 ∧
  (hdrPad (encode i).hdr = true → hdrOp (encode i).hdr = 0b00#2 ∨ hdrOp (encode i).hdr = 0b01#2)

theorem enc (pad : Bool) (value : Word) : Statement (.enc pad value) := mkHdr_legal pad 0b00#2 fun _ => .inl rfl

theorem encp (pad : Bool) (value : Word) (pfx : List Byte) : Statement (.encp pad value pfx) :=
  mkHdr_legal pad 0b01#2 fun _ => .inr rfl

theorem dec (str : List Byte) : Statement (.dec str) := mkHdr_legal false 0b10#2 (by decide)

theorem decp (str : List Byte) : Statement (.decp str) := mkHdr_legal false 0b11#2 (by decide)

end Sys2Proof.Laws.EncodedHeader
end

