-- ==== Sys2Proof/Laws/Reference.lean ====
section
/-! SUPPORT. The small laws of the reference functions of Safety.lean, and how a code's entry of `VAL` follows the code's
place in the alphabet. -/

namespace Sys2Proof

namespace Machine

/-- With `VAL` the inverse of `SYM`, a code's entry is valid exactly when the code is in the alphabet, and its digit is the
code's place there (10_state.md R17). -/
theorem readVal_cases {t : Tables} (hd : Config.Alphabet.Distinct t.sym) (hv : t.ValInverse) (c : Byte) :
    (∃ d : Fin 56, t.sym[d.val] = c ∧ t.sym.toList.idxOf? c = some d.val ∧
      entryValid (t.readVal c) = true ∧ (entryDigit (t.readVal c)).toNat = d.val) ∨
    (c ∉ t.sym.toList ∧ t.sym.toList.idxOf? c = none ∧
      entryValid (t.readVal c) = false ∧ entryDigit (t.readVal c) = 0#6) := by
  by_cases h : c ∈ t.sym.toList
  · left
    obtain ⟨d, rfl⟩ := mem_alphabet.mp h
    refine ⟨d, rfl, ?_, by rw [hv.1 d]; simp, by rw [hv.1 d]; simp; omega⟩
    rw [List.idxOf?_eq_some_iff]
    refine ⟨by simp, by simp, fun j hj e => ?_⟩
    have e' : t.sym[j]'(by omega) = t.sym[d.val] := by simpa using e
    exact absurd (congrArg Fin.val (alphabet_injective hd ⟨j, by omega⟩ d e')) (Nat.ne_of_lt hj)
  · right
    rw [hv.2 c h]
    exact ⟨h, List.idxOf?_eq_none_iff.mpr h, by simp, by simp⟩

/-- In an admissible alphabet the zero symbol is the symbol of the digit 0 alone (10_state.md R15). -/
theorem symbol_eq_zeroSym {a : Config.Alphabet} (h : a.Admissible) (d : Nat) (hd : d < 56) :
    a[d] = Config.zeroSym ↔ d = 0 := by
  have h0 : a[0] = Config.zeroSym := by simpa [Config.zeroSym] using h.1 0
  constructor
  · intro e
    exact congrArg Fin.val (alphabet_injective h.2.2.2.1 ⟨d, hd⟩ ⟨0, by decide⟩ (by simp [e, h0]))
  · rintro rfl; exact h0

end Machine

namespace Reference

@[simp] theorem paddedString_length (a : Config.Alphabet) (v : Nat) : (paddedString a v).length = 12 := by
  simp [paddedString]

/-- The exact value of a concatenation (41_decode.md R94). -/
theorem value_append (a : Config.Alphabet) (x y : List Byte) :
    value a (x ++ y) =
      match value a x, value a y with
      | some m, some n => some (m * 56 ^ y.length + n)
      | _, _ => none := by
  induction x with
  | nil => simp [value]; cases value a y <;> simp
  | cons c cs ih =>
    rw [List.cons_append, value, value, ih]
    cases a.toList.idxOf? c <;> cases value a cs <;> cases value a y <;> simp
    ring

/-- A leading zero symbol adds nothing to the value (41_decode.md R100). -/
theorem value_zeroSym_cons {a : Config.Alphabet} (h : a.Admissible) (s : List Byte) :
    value a (Config.zeroSym :: s) = value a s := by
  have h0 : a.toList.idxOf? Config.zeroSym = some 0 := by
    rw [List.idxOf?_eq_some_iff]
    refine ⟨by simp, ?_, by simp⟩
    simpa using (Machine.symbol_eq_zeroSym h 0 (by decide)).mpr rfl
  rw [value, h0]
  cases value a s <;> simp

/-- A string has no value exactly when one of its symbols is not in the alphabet. -/
theorem value_eq_none_iff (a : Config.Alphabet) (s : List Byte) : value a s = none ↔ ∃ c ∈ s, c ∉ a.toList := by
  induction s with
  | nil => simp [value]
  | cons c cs ih =>
    rw [value]
    cases hc : a.toList.idxOf? c with
    | none =>
      have := List.idxOf?_eq_none_iff.mp hc
      simp only [true_iff]
      exact ⟨c, List.mem_cons_self, this⟩
    | some d =>
      have hm : c ∈ a.toList := by
        by_contra h
        rw [List.idxOf?_eq_none_iff.mpr h] at hc
        cases hc
      cases hv : value a cs with
      | none =>
        simp only [true_iff]
        obtain ⟨e, he, hn⟩ := ih.mp hv
        exact ⟨e, List.mem_cons_of_mem _ he, hn⟩
      | some n =>
        simp only [reduceCtorEq, false_iff]
        rintro ⟨e, he, hn⟩
        cases he with
        | head => exact hn hm
        | tail _ he =>
          have := ih.mpr ⟨e, he, hn⟩
          rw [hv] at this
          cases this

end Reference

end Sys2Proof
end

