-- ==== Sys2Proof/Laws/Request.lean ====
section
/-! SUPPORT. The header byte's 256 values under the opcode map (30_encoding.md R58, R59, R63). -/

namespace Sys2Proof

/-- Which header bytes each row of the opcode map selects, and the padding flag of those that have one. -/
theorem selects_cases : ∀ h : Byte,
    selects h 0xFB#8 0x00#8 = (h == 0#8 || h == 4#8) ∧ selects h 0xFB#8 0x01#8 = (h == 1#8 || h == 5#8) ∧
    selects h 0xFF#8 0x02#8 = (h == 2#8) ∧ selects h 0xFF#8 0x03#8 = (h == 3#8) := by decide

/-- The decoder by header byte: six legal bytes, the rest refused by name. -/
theorem decode_by_header (h : Byte) (v : Word) (s : List Byte) :
    decode ⟨h, v, s⟩ =
      if h = 0#8 then .ok (.enc false v)
      else if h = 4#8 then .ok (.enc true v)
      else if h = 1#8 then .ok (.encp false v s)
      else if h = 5#8 then .ok (.encp true v s)
      else if h = 2#8 then .ok (.dec s)
      else if h = 3#8 then .ok (.decp s)
      else .error (.illegalHeader h) := by
  have h0 : hdrPad 0#8 = false := by decide
  have h1 : hdrPad 1#8 = false := by decide
  have h4 : hdrPad 4#8 = true := by decide
  have h5 : hdrPad 5#8 = true := by decide
  obtain ⟨e1, e2, e3, e4⟩ := selects_cases h
  simp only [decode, e1, e2, e3, e4, Bool.or_eq_true, beq_iff_eq]
  by_cases c0 : h = 0#8
  · subst c0; simp [h0]
  by_cases c4 : h = 4#8
  · subst c4; simp [h4]
  by_cases c1 : h = 1#8
  · subst c1; simp [h1]
  by_cases c5 : h = 5#8
  · subst c5; simp [h5]
  rw [if_neg (fun c => c.elim c0 c4), if_neg (fun c => c.elim c1 c5), if_neg c0, if_neg c4, if_neg c1, if_neg c5]

end Sys2Proof
end

