-- ==== Sys2Proof/Tests/Slice0.lean ====
section
/-! SUPPORT. The model's own tests. Expected results are the spec's: the examples and derived vectors of
95_test_vectors.md (V<n>), the opcode map (30_encoding.md R58), the constraints of 10_state.md R15. Then, for every
statement with hypotheses, a witness that meets them. -/

namespace Sys2Proof.Tests

open Sys2Proof.Machine

/-! ## Helpers -/

/-- A string's bytes in ASCII. -/
def ascii (s : String) : List Byte := s.toList.map fun c => BitVec.ofNat 8 c.toNat

/-- The block after reset and the initialisation step, with the default alphabet. -/
def ready : State := State.reset.initialise

/-- The same with `PFX_MAX = 2` and `IN_MAX = 12`. -/
def readyBounded : State :=
  (State.resetWith Config.alphabetA0 { pfxMax := some 2, inMax := some 12 }).initialise

/-- The newest response of an outcome. -/
def answerOf (o : Host.Outcome State Fault Refusal) : Option Response :=
  match o with
  | .next t => t.responses.getLast?
  | .fault _ => none
  | .refused _ => none

/-- The refusal of an outcome. -/
def refusalOf (o : Host.Outcome State Fault Refusal) : Option Refusal :=
  match o with
  | .next _ => none
  | .fault _ => none
  | .refused q => some q

/-! ## Well-formedness: one ill-formed term for each check -/

/-- R15 constraint 1: the digits come first; here the first two are swapped. -/
theorem test_alphabet_digits_refused :
    ¬ Config.Alphabet.DigitsFirst ((Config.alphabetA0.set 0 0x31#8).set 1 0x30#8) := by decide

/-- R15 constraint 2: lowercase letters come before uppercase ones; here `A` stands among the lowercase. -/
theorem test_alphabet_letters_refused :
    ¬ Config.Alphabet.LettersSplit ((Config.alphabetA0.set 10 0x41#8).set 33 0x61#8) := by decide +kernel

/-- R15 constraint 3: the last symbol is `Z`. -/
theorem test_alphabet_last_refused : ¬ Config.Alphabet.LastIsZ (Config.alphabetA0.set 55 0x4F#8) := by decide

/-- R15 constraint 4: the codes are distinct; here `a` stands twice. -/
theorem test_alphabet_distinct_refused : ¬ Config.Alphabet.Distinct (Config.alphabetA0.set 11 0x61#8) := by
  decide

/-- R15 constraint 5: the delimiter is no symbol. -/
theorem test_alphabet_delim_refused : ¬ Config.Alphabet.NoDelim (Config.alphabetA0.set 20 0x2D#8) := by decide

/-- `IN_MAX >= 12` (00_scope.md R8). -/
theorem test_caps_refused : ¬ ({ pfxMax := none, inMax := some 11 } : Config.Caps).Admissible := by decide

/-- A prefix with the delimiter (V55), a prefix over capacity, an input over capacity (V57). -/
theorem test_instr_refused :
    (Instr.encp false 56 (ascii "a-b")).wellFormed Config.capsUnbounded = false ∧
    (Instr.encp false 56 (ascii "abc")).wellFormed { pfxMax := some 2, inMax := none } = false ∧
    (Instr.dec (ascii "0000000000010")).wellFormed { pfxMax := none, inMax := some 12 } = false ∧
    (Instr.decp (ascii "0000000000010")).wellFormed { pfxMax := none, inMax := some 12 } = false := by decide

/-! ## Decoding: each constructor by a word written out from R50 (`RSV PAD OP`) and R58 -/

theorem test_decode_enc :
    decode ⟨0b00000000#8, 56#64, []⟩ = .ok (.enc false 56) ∧ decode ⟨0b00000100#8, 56#64, []⟩ = .ok (.enc true 56) := by
  decide

theorem test_decode_encp :
    decode ⟨0b00000001#8, 55#64, [0x67#8]⟩ = .ok (.encp false 55 [0x67#8]) ∧
    decode ⟨0b00000101#8, 55#64, [0x67#8]⟩ = .ok (.encp true 55 [0x67#8]) := by decide

theorem test_decode_dec : decode ⟨0b00000010#8, 7#64, [0x31#8, 0x30#8]⟩ = .ok (.dec [0x31#8, 0x30#8]) := by decide

theorem test_decode_decp : decode ⟨0b00000011#8, 7#64, [0x2D#8]⟩ = .ok (.decp [0x2D#8]) := by decide

/-- V53, V54: `DEC` with `PAD = 1`, a reserved bit set, and the last header byte. -/
theorem test_decode_refused :
    decode ⟨0x06#8, 0, []⟩ = .error (.illegalHeader 0x06#8) ∧ decode ⟨0x08#8, 0, []⟩ = .error (.illegalHeader 0x08#8) ∧
    decode ⟨0xFF#8, 0, []⟩ = .error (.illegalHeader 0xFF#8) := by decide

/-! ## The strip -/

/-- R75: only leading zero symbols go, and one symbol stays. -/
theorem test_strip : strip (ascii "000000000101") = ascii "101" ∧ strip (ascii "000000000000") = ascii "0" := by
  decide

/-! ## Witnesses -/

theorem ready_inv : ready.Inv :=
  ⟨⟨alphabetA0_admissible, rfl, rfl, rfl⟩, fun _ => initialise_valInverse alphabetA0_admissible.2.2.2.1, by decide⟩

theorem readyBounded_inv : readyBounded.Inv :=
  ⟨⟨alphabetA0_admissible, rfl, rfl, rfl⟩, fun _ => initialise_valInverse alphabetA0_admissible.2.2.2.1, by decide⟩

theorem reset_inv_witness : State.reset.Inv :=
  ⟨⟨alphabetA0_admissible, rfl, rfl, rfl⟩, fun h => absurd h (by decide), by decide⟩

theorem witness_DecodeInvertsEncode :
    decode ⟨0x00#8, 1#64, []⟩ = .ok (.enc false 1) ∧ decode ⟨0x05#8, 1#64, [0x61#8]⟩ = .ok (.encp true 1 [0x61#8]) ∧
    decode ⟨0x02#8, 1#64, [0x61#8]⟩ = .ok (.dec [0x61#8]) ∧ decode ⟨0x03#8, 1#64, [0x61#8]⟩ = .ok (.decp [0x61#8]) := by
  decide

/-- One header for each row, the largest that selects it, and the headers where the count clause changes. -/
theorem witness_OpcodeMapSelectsOperation :
    0x04#8 &&& 0xFB#8 = 0x00#8 ∧ 0x05#8 &&& 0xFB#8 = 0x01#8 ∧ 0x02#8 &&& 0xFF#8 = 0x02#8 ∧
    0x03#8 &&& 0xFF#8 = 0x03#8 ∧ (0x05#8).toNat ≤ 5 ∧ ¬ (0x06#8).toNat ≤ 5 := by decide

theorem witness_IllegalHeaderRefused :
    (0x05#8).toNat ≤ 5 ∧ 6 ≤ (0x06#8).toNat ∧ hdrPad 0x06#8 = true ∧ hdrRsv 0x08#8 ≠ 0#5 ∧ ready.ready = true ∧
    ({ ready with pending := [⟨0x06#8, 0, []⟩] } : State).pending = ⟨0x06#8, 0, []⟩ :: [] :=
  ⟨by decide, by decide, by decide, by decide, rfl, rfl⟩

theorem witness_UnusedFieldsIgnored :
    hdrOp 0x04#8 = 0b00#2 ∧ hdrOp 0x02#8 = 0b10#2 ∧ hdrOp 0x03#8 = 0b11#2 ∧ ready.ready = true :=
  ⟨by decide, by decide, by decide, rfl⟩

/-- A block with one `ENC 56, 0` pending. -/
def onePending : State := { ready with pending := [⟨0x00#8, 56#64, []⟩] }

theorem witness_StepRunsDecodedInstruction :
    onePending.ready = true ∧ onePending.pending = ⟨0x00#8, 56#64, []⟩ :: [] ∧
    decode ⟨0x00#8, 56#64, []⟩ = .ok (.enc false 56) := ⟨rfl, rfl, by decide⟩

theorem witness_PlacedWordRunsNext : decodeTableWord 8 0x04 = some (.enc true 0) := by decide

theorem witness_ResetLeavesSpecifiedState :
    (∃ c, State.reset = State.resetWith Config.alphabetA0 c) ∧
    (∃ s : State, s.tables.sym = Config.alphabetA0 ∧ ready.hostReset = (s.hostMove .reset).2) :=
  ⟨⟨_, rfl⟩, ⟨ready, rfl, rfl⟩⟩

theorem witness_ReadyBitLifeCycle :
    step State.reset = .next ready ∧ HostMove.takeResponse ≠ .reset ∧ State.reset.ready = false ∧
    onePending.ready = true ∧ onePending.Inv ∧ onePending.pending = ⟨0x00#8, 56#64, []⟩ :: [] ∧
    decode ⟨0x00#8, 56#64, []⟩ = .ok (.enc false 56) :=
  ⟨rfl, by decide, rfl, rfl, ready_inv, rfl, by decide⟩

theorem witness_InitialiserBuildsInverse :
    State.reset.ready = false ∧ Config.Alphabet.Distinct State.reset.tables.sym :=
  ⟨rfl, alphabetA0_admissible.2.2.2.1⟩

theorem witness_InitialisationOncePerReset :
    ready.ready = true ∧ step ready = .next ready ∧ HostMove.readReady ≠ .reset := ⟨rfl, rfl, by decide⟩

theorem witness_TablesNeverMutated :
    State.reset.Inv ∧ step State.reset = .next ready ∧ ready.Inv ∧ ready.ready = true ∧ step ready = .next ready :=
  ⟨reset_inv_witness, rfl, ready_inv, rfl, rfl⟩

theorem witness_ResetMeetsInvariant :
    Config.alphabetA0.Admissible ∧ ({ pfxMax := some 0, inMax := some 12 } : Config.Caps).Admissible :=
  ⟨alphabetA0_admissible, by decide⟩

theorem witness_EveryStepKeepsInvariant : State.reset.Inv ∧ step State.reset = .next ready := ⟨reset_inv_witness, rfl⟩

theorem witness_HostMovesKeepInvariant : ready.Inv := ready_inv

theorem witness_RequestHeldUntilReady :
    let s : State := { State.reset with pending := [⟨0x00#8, 56#64, []⟩] }
    s.ready = false ∧ s.pending = ⟨0x00#8, 56#64, []⟩ :: [] ∧ decode ⟨0x00#8, 56#64, []⟩ = .ok (.enc false 56) :=
  ⟨rfl, rfl, by decide⟩

theorem witness_AgentsTakeTurns :
    ready.enabled .initialiser = false ∧ ready.enabled .codec = false ∧ onePending.enabled .codec = true ∧
    State.reset.enabled .initialiser = true := ⟨rfl, rfl, rfl, rfl⟩

theorem witness_BootAnswersHeldRequest :
    Config.alphabetA0.Admissible ∧ ({ pfxMax := some 0, inMax := some 12 } : Config.Caps).Admissible ∧
    decode ⟨0x02#8, 0, ascii "14PSsSsyWstf"⟩ = .ok (.dec (ascii "14PSsSsyWstf")) ∧
    (Instr.dec (ascii "14PSsSsyWstf")).wellFormed { pfxMax := some 0, inMax := some 12 } = true :=
  ⟨alphabetA0_admissible, by decide, by decide, by decide⟩

theorem witness_HostMovesDoOnlyTheirPart :
    ({ ready with responses := [.okValue 1, .okValue 2] } : State).responses = .okValue 1 :: [.okValue 2] ∧
    ready.responses = [] := ⟨rfl, rfl⟩

theorem witness_PowerAndThresholdReads :
    ready.tables.RomOk ∧ ((10 : Fin 12).val ≤ 10 ∧ 55 ≤ 55) ∧ ((11 : Fin 12).val = 11 ∧ 1 ≤ 1) ∧
    ((10 : Fin 12).val ≤ 10 ∧ 56 ≤ 56) ∧ ((11 : Fin 12).val = 11 ∧ 2 ≤ 2) :=
  ⟨ready_inv.1, by decide, by decide, by decide, by decide⟩

theorem witness_SymbolReads : (55#6 : Digit).toNat < 56 ∧ 56 ≤ (56#6 : Digit).toNat := by decide

/-- The initialiser's step, with a code of each kind, and a step of a ready block. -/
theorem witness_ValueReadsAreTotal :
    State.reset.Inv ∧ step State.reset = .next ready ∧ 0x5A#8 ∈ ready.tables.sym.toList ∧
    0x2D#8 ∉ ready.tables.sym.toList ∧ ready.Inv ∧ step ready = .next ready :=
  ⟨reset_inv_witness, rfl, by decide, by decide, ready_inv, rfl⟩

theorem witness_StageTakesLargestMultiplier :
    ready.tables.RomOk ∧ (10 : Fin 12).val ≤ 10 ∧ (0 : Fin 12).val ≤ 10 := ⟨ready_inv.1, by decide, by decide⟩

theorem witness_TopStageIsBinary :
    ready.tables.RomOk ∧ 16985107389382393856 ≤ (16985107389382393856#64).toNat ∧
    (16985107389382393855#64).toNat < 16985107389382393856 := ⟨ready_inv.1, by decide, by decide⟩

theorem witness_StageDigitCountsComparisons :
    ready.tables.RomOk ∧ (10 : Fin 12).val ≤ 10 ∧ (1 ≤ 1 ∧ 1 ≤ 55) ∧ (1 ≤ 55 ∧ 55 ≤ 55) ∧ (11 : Fin 12).val = 11 :=
  ⟨ready_inv.1, by decide, by decide, by decide, by decide⟩

theorem witness_RemainderUpdateNeverBorrows : ready.tables.RomOk ∧ (0 : Fin 12) ≠ 11 := ⟨ready_inv.1, by decide⟩

/-- V4: the digits of 56 are 1 at position 1 and 0 elsewhere; V12: 56^11 is the least value with `DIG[11] = 1`. -/
theorem witness_PipelineComputesBase56Digits :
    ready.tables.RomOk ∧ (∀ p : Fin 12, (if p = 1 then 1 else 0) ≤ 55) ∧
    ((List.finRange 12).map fun p : Fin 12 => (if p = 1 then 1 else 0) * 56 ^ p.val).sum = (56#64).toNat ∧
    56 ^ 11 ≤ (16985107389382393856#64).toNat ∧ ¬ 56 ^ 11 ≤ (16985107389382393855#64).toNat :=
  ⟨ready_inv.1, by decide, by decide, by decide, by decide⟩

theorem witness_EncAnswersBase56String :
    ready.Inv ∧ ready.ready = true ∧
    (1 ≤ 2 ∧ 2 < (Reference.unpaddedString Config.alphabetA0 3136).length) := ⟨ready_inv, rfl, by decide, by decide⟩

theorem witness_EncOfZero : ready.Inv ∧ ready.ready = true := ⟨ready_inv, rfl⟩

/-- All twelve zero, eleven, and none. -/
theorem witness_StripLeavesOneSymbol :
    (12 + ([] : List Byte).length = 12 ∧ ([] : List Byte).head? ≠ some Config.zeroSym) ∧
    (11 + [0x31#8].length = 12 ∧ [0x31#8].head? ≠ some Config.zeroSym) ∧
    (0 + (List.replicate 12 0x5A#8).length = 12 ∧ (List.replicate 12 0x5A#8).head? ≠ some Config.zeroSym) ∧
    ready.Inv ∧ ready.ready = true := ⟨by decide, by decide, by decide, ready_inv, rfl⟩

/-- An execution on `ready` that completes: what a witness of `exec i s = .next t` shows. -/
def completes (i : Instr) (s : State) : Bool := (answerOf (exec i s)).isSome

theorem completes_next {i : Instr} {s : State} (h : completes i s = true) : ∃ t, exec i s = .next t := by
  unfold completes at h
  cases he : exec i s with
  | next t => exact ⟨t, rfl⟩
  | fault f => rw [he] at h; exact absurd h (by simp [answerOf])
  | refused q => rw [he] at h; exact absurd h (by simp [answerOf])

theorem witness_EncodeNeverFails :
    readyBounded.ready = true ∧ (Instr.encp true 56 (ascii "id")).wellFormed readyBounded.caps = true :=
  ⟨rfl, by decide⟩

/-- A prefix at the capacity, without the delimiter and with it. -/
theorem witness_EncpAnswersPrefixedString :
    readyBounded.Inv ∧ readyBounded.ready = true ∧ readyBounded.caps.admitsPrefix (ascii "id").length = true ∧
    Config.delim ∉ ascii "id" ∧ readyBounded.caps.admitsPrefix (ascii "i-").length = true ∧ Config.delim ∈ ascii "i-" :=
  ⟨readyBounded_inv, rfl, by decide, by decide, by decide, by decide⟩

/-- Within the capacity, and over it. -/
theorem witness_EncpRefusesDelimiter :
    readyBounded.ready = true ∧ 0x2D#8 ∈ ascii "i-" ∧ readyBounded.caps.admitsPrefix (ascii "i-").length = true ∧
    0x2D#8 ∈ ascii "id-" ∧ readyBounded.caps.admitsPrefix (ascii "id-").length = false :=
  ⟨rfl, by decide, by decide, by decide, by decide⟩

theorem witness_NormaliseToTwelveSymbols :
    (List.replicate 12 0x31#8).length ≤ 12 ∧ 12 < (List.replicate 13 0x31#8).length ∧
    (normalise (List.replicate 13 0x31#8)).2[0]? = some 0x31#8 ∧ (normalise [0x31#8]).2[11]? = some 0x31#8 := by decide

theorem witness_AccumulatorHoldsExactSum :
    ready.tables.RomOk ∧ (∀ p : Fin 12, ({ Datapath.reset with dig := Vector.replicate 12 55#6 } : Datapath).dig[p.val].toNat ≤ 55) ∧
    12 ≤ 12 := ⟨ready_inv.1, by decide, by decide⟩

theorem witness_OverflowSeenAtPositionEleven :
    ready.tables.RomOk ∧ (∀ p : Fin 12, ({ Datapath.reset with dig := Vector.replicate 12 55#6 } : Datapath).dig[p.val].toNat ≤ 55) ∧
    (∀ p : Fin 12, Datapath.reset.dig[p.val].toNat ≤ 55) := ⟨ready_inv.1, by decide, by decide⟩

/-- An input at the capacity. -/
theorem witness_DecAnswersExactValue :
    readyBounded.Inv ∧ readyBounded.ready = true ∧ readyBounded.caps.admitsInput (ascii "14PSsSsyWstf").length = true :=
  ⟨readyBounded_inv, rfl, by decide⟩

theorem witness_DecOfEmptyIsZero : readyBounded.Inv ∧ readyBounded.ready = true := ⟨readyBounded_inv, rfl⟩

theorem witness_LeadingZerosMeanNothing :
    readyBounded.Inv ∧ readyBounded.ready = true ∧ readyBounded.caps.admitsInput (10 + (ascii "10").length) = true ∧
    readyBounded.caps.admitsInput (ascii "10").length = true :=
  ⟨readyBounded_inv, rfl, by decide, by decide⟩

/-- V34: one excess symbol, and exactly twelve after it. -/
theorem witness_ExcessSymbolOverflows :
    ready.Inv ∧ ready.ready = true ∧ ready.caps.admitsInput ([] ++ 0x31#8 :: List.replicate 12 0x30#8).length = true ∧
    12 ≤ (List.replicate 12 0x30#8).length ∧
    (∀ b ∈ [] ++ 0x31#8 :: List.replicate 12 0x30#8, b ∈ ready.tables.sym.toList) ∧ 0x31#8 ≠ Config.zeroSym :=
  ⟨ready_inv, rfl, by decide, by decide, by decide, by decide⟩

theorem witness_DecpAnswersRemainder :
    readyBounded.Inv ∧ readyBounded.ready = true ∧ readyBounded.caps.admitsInput (ascii "id-000000010").length = true :=
  ⟨readyBounded_inv, rfl, by decide⟩

/-- V46, and V49 with a second delimiter in the remainder. -/
theorem witness_DecpDiscardsPrefix :
    ready.ready = true ∧ Config.delim ∉ ascii "order#7" ∧
    ready.caps.admitsInput (ascii "order#7" ++ Config.delim :: ascii "10").length = true ∧
    ready.caps.admitsInput (ascii "10").length = true ∧
    Config.delim ∉ ascii "a" ∧ ready.caps.admitsInput (ascii "a" ++ Config.delim :: ascii "b-10").length = true ∧
    ready.caps.admitsInput (ascii "b-10").length = true :=
  ⟨rfl, by decide, by decide, by decide, by decide, by decide, by decide⟩

theorem witness_ErrorCarriesOnlyItsCode : (Response.err .overflow).stat = (Response.err .overflow).stat := rfl

/-- V7 and V51. -/
theorem witness_InvalidSymbolRaised :
    ready.Inv ∧ ready.ready = true ∧ (∃ t, exec (.dec (ascii "!")) ready = .next t) ∧
    (∃ t, exec (.decp (ascii "id-!")) ready = .next t) :=
  ⟨ready_inv, rfl, completes_next (by decide), completes_next (by decide)⟩

/-- V8, and V45 where the delimiter is there. -/
theorem witness_MalformedInputRaised :
    ready.Inv ∧ ready.ready = true ∧ (∃ t, exec (.decp (ascii "noDelimiterHere")) ready = .next t) ∧
    (∃ t, exec (.decp (ascii "-10")) ready = .next t) ∧ (∃ t, exec (.dec (ascii "-")) ready = .next t) :=
  ⟨ready_inv, rfl, completes_next (by decide), completes_next (by decide),
    completes_next (by decide)⟩

/-- V31 and V36, either side of `MAX64`, and V50. -/
theorem witness_OverflowRaised :
    ready.Inv ∧ ready.ready = true ∧ (∃ t, exec (.dec (ascii "14PSsSsyWstg")) ready = .next t) ∧
    (∃ t, exec (.dec (ascii "14PSsSsyWstf")) ready = .next t) ∧
    (∃ t, exec (.decp (ascii "id-14PSsSsyWstg")) ready = .next t) :=
  ⟨ready_inv, rfl, completes_next (by decide), completes_next (by decide),
    completes_next (by decide)⟩

theorem witness_ErrorPriority :
    ({ Datapath.reset with nodelim := true, inv := true, ovf := true } : Datapath).nodelim = true ∧
    ({ Datapath.reset with inv := true, ovf := true } : Datapath).inv = true ∧
    ({ Datapath.reset with ovf := true } : Datapath).ovf = true ∧ Datapath.reset.ovf = false ∧
    ready.Inv ∧ ready.ready = true ∧ 0x21#8 ∉ ready.tables.sym.toList :=
  ⟨rfl, rfl, rfl, rfl, ready_inv, rfl, by decide⟩

/-- Each reason, and no refusal while `READY = 0`. -/
theorem witness_StepRefusesExactly :
    refusalOf (step { ready with pending := [⟨0x06#8, 0, []⟩] }) = some (.illegalHeader 0x06#8) ∧
    refusalOf (step { ready with pending := [⟨0x01#8, 0, [0x2D#8]⟩] }) = some .delimiterInPrefix ∧
    refusalOf (step { readyBounded with pending := [⟨0x01#8, 0, ascii "abc"⟩] }) = some .stringTooLong ∧
    refusalOf (step { readyBounded with pending := [⟨0x02#8, 0, ascii "0000000000010"⟩] }) = some .stringTooLong ∧
    refusalOf (step { State.reset with pending := [⟨0x06#8, 0, []⟩] }) = none := by decide

/-- Two blocks that differ in every register of the datapath, in what they delivered and in what waits. -/
theorem witness_ResponseDependsOnRequestOnly :
    let s' : State :=
      { onePending with
        responses := [.okValue 7]
        dp := { rem := 1, dig := Vector.replicate 12 63#6, pos := 9, acc := 5, inv := true, ovf := true, nodelim := true } }
    ready.ready = true ∧ s'.ready = true ∧ ready.tables = s'.tables ∧ ready.caps = s'.caps ∧ ready.dp ≠ s'.dp := by
  refine ⟨rfl, rfl, rfl, rfl, fun h => ?_⟩
  have := congrArg Datapath.inv h
  exact absurd this (by decide)

theorem witness_PendingRequestsAnsweredInOrder :
    let s : State := { ready with pending := [⟨0x00#8, 56#64, []⟩, ⟨0x02#8, 0, ascii "10"⟩] }
    s.Inv ∧ s.ready = true ∧ s.pending.map decode = [Instr.enc false 56, Instr.dec (ascii "10")].map .ok ∧
    (∀ i ∈ [Instr.enc false 56, Instr.dec (ascii "10")], i.wellFormed s.caps = true) :=
  ⟨ready_inv, rfl, by decide, by decide⟩

theorem witness_RoundTrip :
    ready.Inv ∧ ready.ready = true ∧ Config.delim ∉ ascii "id" ∧ ready.caps.admitsPrefix (ascii "id").length = true ∧
    ready.caps.admitsInput ((ascii "id").length + 13) = true :=
  ⟨ready_inv, rfl, by decide, by decide, by decide⟩

/-! ## The operations: the tests that run a whole transaction stand last -/

/-- V14: `MAX64`, unpadded. -/
theorem test_enc_max : answerOf (exec (.enc false 18446744073709551615#64) ready) =
    some (.okString (ascii "14PSsSsyWstf")) := by decide

/-- V26: prefix bytes outside the alphabet are copied. -/
theorem test_encp_prefix : answerOf (exec (.encp false 1234567890#64 (ascii "order#7")) ready) =
    some (.okString (ascii "order#7-0000002dwVZa")) := by decide

/-- V55. -/
theorem test_encp_delimiter : refusalOf (exec (.encp true 56#64 (ascii "a-b")) ready) = some .delimiterInPrefix := by
  decide

/-- V36 and V31: the largest valid input, and one more. -/
theorem test_dec_max : answerOf (exec (.dec (ascii "14PSsSsyWstf")) ready) = some (.okValue 18446744073709551615#64) := by
  decide

theorem test_dec_overflow : answerOf (exec (.dec (ascii "14PSsSsyWstg")) ready) = some (.err .overflow) := by
  decide

/-- V46 and V8. -/
theorem test_decp_prefix : answerOf (exec (.decp (ascii "order#7-10")) ready) = some (.okValue 56#64) := by decide

theorem test_decp_no_delimiter : answerOf (exec (.decp (ascii "noDelimiterHere")) ready) = some (.err .malformedInput) := by
  decide

/-- V20, the trace of `MAX64`: stage 10 finds 4 and leaves 248414727942701055. -/
theorem test_stage_ten :
    (encodeStage ready.tables { Datapath.reset with rem := 1461636684327157759#64 } 10).dig[10] = 4#6 ∧
    (encodeStage ready.tables { Datapath.reset with rem := 1461636684327157759#64 } 10).rem = 248414727942701055#64 := by
  decide

/-! ## The witnesses that run a whole transaction -/

/-- R74: the padded form of 0, from the initialised block; the encode witnesses below use it. -/
theorem test_padded_zero : encodePadded ready.tables 0#64 ready.dp = some (List.replicate 12 0x30#8) := by decide

theorem enc_zero_completes (pad : Bool) : ∃ t, exec (.enc pad 0#64) ready = .next t :=
  ⟨_, by
    simp only [exec, execEnc, whenReady_of_ready (show ready.ready = true from rfl), State.answerEncoded, test_padded_zero]
    rfl⟩

theorem encp_zero_completes (pad : Bool) : ∃ t, exec (.encp pad 0#64 [0x69#8]) ready = .next t :=
  ⟨_, by
    simp only [exec, execEncp, whenReady_of_ready (show ready.ready = true from rfl), State.answerEncoded, test_padded_zero]
    rfl⟩

/-- Padded and unpadded 0, and an unpadded value that is not 0 (V4: `ENC 56, 0` answers "10"). -/
theorem witness_PaddingInvariant :
    ready.Inv ∧ ready.ready = true ∧ (∃ t, exec (.enc true 0#64) ready = .next t) ∧
    (∃ t, exec (.enc false 0#64) ready = .next t) ∧
    answerOf (exec (.enc false 56#64) ready) = some (.okString (ascii "10")) :=
  ⟨ready_inv, rfl, enc_zero_completes true, enc_zero_completes false, by decide⟩

theorem witness_EncpIgnoresPad :
    ready.Inv ∧ ready.ready = true ∧ ∃ t, exec (.encp false 0#64 [0x69#8]) ready = .next t :=
  ⟨ready_inv, rfl, encp_zero_completes false⟩

theorem witness_StatusByteCodes :
    ready.ready = true ∧ (∃ t, exec (.enc true 0#64) ready = .next t) ∧
    (∃ t, exec (.encp true 0#64 [0x69#8]) ready = .next t) :=
  ⟨rfl, enc_zero_completes true, encp_zero_completes true⟩

theorem witness_TransactionFrame :
    ready.ready = true ∧ (∃ t, exec (.enc false 0#64) ready = .next t) ∧
    State.reset.ready = false ∧ exec (.enc false 0#64) State.reset = .next State.reset :=
  ⟨rfl, enc_zero_completes false, rfl, rfl⟩

/-- The initialiser's step, an idle step, and a step that answers. -/
theorem witness_OneResponsePerAcceptedRequest :
    step State.reset = .next ready ∧ step ready = .next ready ∧
    answerOf (step { ready with pending := [⟨0x02#8, 0, ascii "10"⟩] }) = some (.okValue 56#64) :=
  ⟨rfl, rfl, by decide⟩

/-- V7 with a second request behind it. -/
theorem witness_ErrorLeavesBlockReady :
    let s : State := { ready with pending := [⟨0x02#8, 0, ascii "!"⟩, ⟨0x02#8, 0, ascii "10"⟩] }
    s.Inv ∧ s.ready = true ∧ answerOf (exec (.dec (ascii "!")) s) = some (.err .invalidSymbol) ∧
    s.pending = ⟨0x02#8, 0, ascii "!"⟩ :: ⟨0x02#8, 0, ascii "10"⟩ :: [] ∧
    decode ⟨0x02#8, 0, ascii "10"⟩ = .ok (.dec (ascii "10")) :=
  ⟨ready_inv, rfl, by decide, rfl, by decide⟩

theorem witness_ReencodingPaddedString :
    ready.Inv ∧ ready.ready = true ∧ (ascii "000000000010").length = 12 ∧
    answerOf (exec (.dec (ascii "000000000010")) ready) = some (.okValue 56#64) :=
  ⟨ready_inv, rfl, by decide, by decide⟩

end Sys2Proof.Tests
end

/-! ## What the encode path computes: the base-56 digits of the value, and their symbols -/

namespace Sys2Proof

namespace Reference

/-- Taking off the digits from position `n` up leaves the digits below `n` (40_encode.md R70(a)). -/
theorem digit_mod_pow {p n : Nat} (v : Nat) (h : p < n) : digit (v % 56 ^ n) p = digit v p := by
  obtain ⟨k, rfl⟩ : ∃ k, n = p + (k + 1) := ⟨n - p - 1, by omega⟩
  rw [digit, digit, Nat.pow_add, Nat.mod_mul_right_div_self,
    Nat.mod_mod_of_dvd _ (Dvd.intro_left (56 ^ k) (Nat.pow_succ ..).symm)]

end Reference

namespace Machine

/-- From the stage of position `p` on, the stages still to run are `p` and those below it. -/
theorem positions_drop : ∀ p : Fin 12, positions.drop (11 - p.val) = p :: positions.drop (12 - p.val) := by decide

/-- The stages of the positions below `n`, begun with a remainder below `56^n`, find that remainder's digits and leave
the digits from `n` up (40_encode.md R70(b)). -/
theorem encodeStages_dig {t : Tables} (ht : t.RomOk) (p : Fin 12) :
    ∀ (n : Nat), n ≤ 12 → ∀ d : Datapath, d.rem.toNat < 56 ^ n →
      ((positions.drop (12 - n)).foldl (encodeStage t) d).dig[p.val].toNat =
        if p.val < n then Reference.digit d.rem.toNat p.val else d.dig[p.val].toNat
  | 0, _, d, _ => by simp [positions]
  | n + 1, hn, d, hd => by
    have hrem : (encodeStage t d ⟨n, hn⟩).rem.toNat = d.rem.toNat % 56 ^ n := encodeStage_rem_spec ht ⟨n, hn⟩ d hd
    have hlt : (encodeStage t d ⟨n, hn⟩).rem.toNat < 56 ^ n := hrem ▸ Nat.mod_lt _ (Nat.pow_pos (by decide))
    have hstage := (stageDigit_spec ht ⟨n, hn⟩ d.rem hd).1
    rw [show 12 - (n + 1) = 11 - n by omega, positions_drop ⟨n, hn⟩, List.foldl_cons,
      encodeStages_dig ht p n (by omega) _ hlt, hrem, encodeStage_dig]
    rcases Nat.lt_trichotomy p.val n with hp | hp | hp
    · rw [if_pos hp, if_pos (by omega), Reference.digit_mod_pow _ hp]
    · have hq : d.rem.toNat / 56 ^ n < 56 := (Nat.div_lt_iff_lt_mul (Nat.pow_pos (by decide))).mpr (by omega)
      simp [hp, hstage, Reference.digit, Nat.mod_eq_of_lt hq]
    · rw [if_neg (by omega), if_neg (by omega), Vector.getElem_set_ne _ _ (by simpa using hp.ne)]

/-- The pipeline's digits are those of the value (40_encode.md R70(b)). -/
theorem encodePipeline_dig {t : Tables} (ht : t.RomOk) (v : Word) (d : Datapath) (p : Fin 12) :
    (encodePipeline t v d).dig[p.val].toNat = Reference.digit v.toNat p.val := by
  have hv : v.toNat < 56 ^ 12 := Nat.lt_trans v.isLt (by decide)
  have h := encodeStages_dig ht p 12 (Nat.le_refl 12) { d with rem := v } hv
  rwa [if_pos p.isLt] at h

/-- `S12` is the padded string of the value, whatever the datapath held (40_encode.md R72). -/
theorem encodePadded_eq {t : Tables} (ht : t.RomOk) (v : Word) (d : Datapath) :
    encodePadded t v d = some (Reference.paddedString t.sym v.toNat) := by
  have hdig := encodePipeline_dig ht v d
  have hlt := Reference.digit_lt v.toNat
  rw [encodePadded, emitSymbols_spec t _ _ fun p _ => by rw [hdig]; exact hlt p.val]
  simp only [hdig, Vector.getElem?_eq_getElem (hlt _), List.filterMap_eq_map']
  rfl

theorem answerEncoded_eq {s : State} (h : s.tables.RomOk) (v : Word) (f : List Byte → List Byte) :
    s.answerEncoded v f = .next (s.complete (.okString (f (Reference.paddedString s.tables.sym v.toNat)))) := by
  simp only [State.answerEncoded, encodePadded_eq h]

/-! ## The strip rule gives the shortest string -/

/-- The leading zero symbols end at the first symbol that is another one. -/
theorem leadingZeros_eq_of_getElem_ne {s : List Byte} {k : Nat} (hk : k < s.length) (hz : ∀ i (hi : i < k), s[i] = Config.zeroSym)
    (hne : s[k] ≠ Config.zeroSym) : leadingZeros s = k := by
  have htake : s.take k = List.replicate k Config.zeroSym := by
    refine List.eq_replicate_iff.mpr ⟨by simp; omega, fun b hb => ?_⟩
    obtain ⟨i, hi, rfl⟩ := List.mem_take_iff_getElem.mp hb
    exact hz i (by omega)
  rw [← List.take_append_drop k s, htake, List.drop_eq_getElem_cons hk, leadingZeros_append k _ _ hne]

end Machine

namespace Reference

open Machine

/-- The number of symbols needed is that of the digits: the logarithm to the base 56 and one (40_encode.md R75). -/
theorem symbolsNeeded_eq_log {v : Nat} (hv : v < 56 ^ 12) : symbolsNeeded v = Nat.log 56 v + 1 := by
  have hcount : ∀ n : Fin 12, ((List.range 11).filter fun l => decide (l < n.val)).length = n.val := by decide
  have hlog : Nat.log 56 v < 12 := Nat.log_lt_of_lt_pow' (by decide) hv
  have hle : ∀ l, 56 ^ (l + 1) ≤ v ↔ l < Nat.log 56 v := fun l =>
    ⟨fun h => Nat.le_log_of_pow_le (by decide) h, fun h => Nat.pow_le_of_le_log (by rintro rfl; simp at h) h⟩
  simp only [symbolsNeeded, hle]
  rw [hcount ⟨_, hlog⟩]

theorem digit_of_lt {v p : Nat} (h : v < 56 ^ p) : digit v p = 0 := by rw [digit, Nat.div_eq_of_lt h]

/-- The leading digit of a value that is not 0 is not 0. -/
theorem digit_log_ne_zero {v : Nat} (h : v ≠ 0) : digit v (Nat.log 56 v) ≠ 0 := by
  have hlt : v / 56 ^ Nat.log 56 v < 56 :=
    Nat.div_lt_of_lt_mul (Nat.lt_pow_succ_log_self (b := 56) (by decide) v)
  have hpos : 0 < v / 56 ^ Nat.log 56 v := Nat.div_pos (Nat.pow_log_le_self 56 h) (Nat.pow_pos (by decide))
  rw [digit, Nat.mod_eq_of_lt hlt]
  exact hpos.ne'

theorem paddedString_getElem (a : Config.Alphabet) (v k : Nat) (h : k < (paddedString a v).length) :
    (paddedString a v)[k] = a[digit v (11 - k)]'(digit_lt v (11 - k)) := by simp [paddedString]

/-- The padded string of 0 is twelve zero symbols (40_encode.md R74). -/
theorem paddedString_zero {a : Config.Alphabet} (ha : a.Admissible) :
    paddedString a 0 = List.replicate 12 Config.zeroSym := by
  refine List.eq_replicate_iff.mpr ⟨paddedString_length a 0, fun b hb => ?_⟩
  obtain ⟨k, hk, rfl⟩ := List.getElem_of_mem hb
  rw [paddedString_getElem, symbol_eq_zeroSym ha]
  exact digit_of_lt (Nat.pow_pos (by decide))

/-- A value that is not 0 has its leading digit after the zero symbols of its padded string (40_encode.md R75). -/
theorem leadingZeros_paddedString {a : Config.Alphabet} (ha : a.Admissible) {v : Nat} (h0 : v ≠ 0) (hv : v < 56 ^ 12) :
    leadingZeros (paddedString a v) = 11 - Nat.log 56 v := by
  have hlog : Nat.log 56 v < 12 := Nat.log_lt_of_lt_pow' (by decide) hv
  refine leadingZeros_eq_of_getElem_ne (by simp; omega) (fun i hi => ?_) ?_
  · rw [paddedString_getElem, symbol_eq_zeroSym ha]
    exact digit_of_lt (Nat.lt_pow_of_log_lt (by decide) (by omega))
  · rw [paddedString_getElem, Ne, symbol_eq_zeroSym ha, show 11 - (11 - Nat.log 56 v) = Nat.log 56 v by omega]
    exact digit_log_ne_zero h0

/-- The strip rule leaves the last `symbolsNeeded` symbols (40_encode.md R75). -/
theorem strip_paddedString {a : Config.Alphabet} (ha : a.Admissible) {v : Nat} (hv : v < 56 ^ 12) :
    strip (paddedString a v) = unpaddedString a v := by
  rw [strip, unpaddedString, symbolsNeeded_eq_log hv, paddedString_length]
  by_cases h0 : v = 0
  · subst h0
    rw [paddedString_zero ha, leadingZeros_replicate, if_pos rfl, Nat.log_zero_right]
  · rw [leadingZeros_paddedString ha h0 hv, if_neg (by omega)]
    congr 1
    omega

end Reference

end Sys2Proof

/-! ## What the decode path computes: the exact value of the string, and which error it has -/

namespace Sys2Proof.Reference

/-- Leading zero symbols mean nothing (41_decode.md R100). -/
theorem value_replicate_zeroSym {a : Config.Alphabet} (ha : a.Admissible) (n : Nat) (s : List Byte) :
    value a (List.replicate n Config.zeroSym ++ s) = value a s := by
  induction n with
  | zero => rfl
  | succ n ih => rw [List.replicate_succ, List.cons_append, value_zeroSym_cons ha, ih]

/-- The reference's split at the first delimiter is the machine's (41_decode.md R96). -/
theorem decodePrefixedAnswer_eq (a : Config.Alphabet) (s : List Byte) :
    decodePrefixedAnswer a s = (Machine.afterDelim s).elim (.err .malformedInput) (decodeAnswer a) := by
  induction s with
  | nil => rfl
  | cons c cs ih =>
    by_cases hc : c = Config.delim
    · simp [decodePrefixedAnswer, Machine.afterDelim, hc]
    · rw [Machine.afterDelim, if_neg hc, ← ih]
      simp [decodePrefixedAnswer, hc]

end Sys2Proof.Reference

namespace Sys2Proof.Machine

/-- The weighted sum of the digits that `VAL` holds for the bytes of a string, over any length (41_decode.md R94). -/
def Tables.weightedSum (t : Tables) : List Byte → Nat
  | [] => 0
  | c :: cs => (entryDigit (t.readVal c)).toNat * 56 ^ cs.length + t.weightedSum cs

/-- With `VAL` the inverse of `SYM`, the exact value of a string that has one is the weighted sum of its digits. -/
theorem weightedSum_of_value {t : Tables} (hd : Config.Alphabet.Distinct t.sym) (hv : t.ValInverse) :
    ∀ {s : List Byte} {n : Nat}, Reference.value t.sym s = some n → t.weightedSum s = n
  | [], n, h => by simpa [Reference.value, Tables.weightedSum] using h
  | c :: cs, n, h => by
    rw [Reference.value] at h
    rw [Tables.weightedSum]
    obtain ⟨d, -, hidx, -, hdig⟩ | ⟨-, hidx, -, -⟩ := readVal_cases hd hv c
    · cases hcs : Reference.value t.sym cs with
      | none => simp [hidx, hcs] at h
      | some m =>
        rw [hdig, weightedSum_of_value hd hv hcs]
        simpa [hidx, hcs] using h
    · simp [hidx] at h

/-- The weighted sum is 0 exactly when no digit is another one. -/
theorem weightedSum_eq_zero_iff (t : Tables) (s : List Byte) :
    t.weightedSum s = 0 ↔ s.any (fun c => entryDigit (t.readVal c) != 0#6) = false := by
  induction s with
  | nil => simp [Tables.weightedSum]
  | cons c cs ih =>
    rw [Tables.weightedSum, Nat.add_eq_zero_iff, ih, List.any_cons, Bool.or_eq_false_iff]
    simp [← BitVec.toNat_inj]

/-- The products of the positions below `n` sum to the weighted sum of the last `n` of twelve symbols. -/
theorem sum_positions_eq_weightedSum (t : Tables) {t12 : List Byte} (h : t12.length = 12) :
    ∀ n, n ≤ 12 →
      ((positions.drop (12 - n)).map fun p => (entryDigit (t.readVal (t12[11 - p.val]'(by omega)))).toNat * 56 ^ p.val).sum =
        t.weightedSum (t12.drop (12 - n))
  | 0, _ => by rw [List.drop_of_length_le h.le]; rfl
  | n + 1, hn => by
    rw [show 12 - (n + 1) = 11 - n by omega, positions_drop ⟨n, hn⟩, List.map_cons, List.sum_cons,
      sum_positions_eq_weightedSum t h n (by omega), List.drop_eq_getElem_cons (i := 11 - n) (by omega), Tables.weightedSum,
      show 11 - n + 1 = 12 - n by omega, List.length_drop, show t12.length - (12 - n) = n by omega]

/-- Loading twelve symbols and adding the twelve products leaves their weighted sum in `ACC` (41_decode.md R87, R88). -/
theorem accumulate_loadDigits_acc {t : Tables} (ht : t.pow = Config.powTable) {t12 : List Byte} (h : t12.length = 12)
    (d : Datapath) : (accumulate t (loadDigits t t12 d)).acc.toNat = t.weightedSum t12 := by
  rw [accumulate_spec ht]
  simp only [loadDigits_dig t t12 h]
  exact sum_positions_eq_weightedSum t h 12 (Nat.le_refl 12)

/-- A byte of the string has an invalid entry exactly when the string has no value (60_exceptions.md R102). -/
theorem any_invalid_iff_value_none {t : Tables} (hd : Config.Alphabet.Distinct t.sym) (hv : t.ValInverse)
    (s : List Byte) :
    s.any (fun c => !entryValid (t.readVal c)) = true ↔ Reference.value t.sym s = none := by
  have hinvalid : ∀ c, entryValid (t.readVal c) = false ↔ c ∉ t.sym.toList := fun c => by
    obtain ⟨d, hsym, -, hvalid, -⟩ | ⟨hmem, -, hvalid, -⟩ := readVal_cases hd hv c
    · simp [hvalid, mem_alphabet.mpr ⟨d, hsym⟩]
    · simp [hvalid, hmem]
  simp only [Reference.value_eq_none_iff, List.any_eq_true, Bool.not_eq_true', hinvalid]

/-- The exact value of a string by its normalisation: that of the excess symbols above the twelve positions, and that of
the last twelve (41_decode.md R86, R94). -/
theorem value_normalise {t : Tables} (ha : t.sym.Admissible) (hv : t.ValInverse) {s : List Byte} {n : Nat}
    (h : Reference.value t.sym s = some n) :
    n = t.weightedSum (normalise s).1 * 56 ^ 12 + t.weightedSum (normalise s).2 := by
  have hd : t.sym.Distinct := ha.2.2.2.1
  obtain ⟨hlen, happ⟩ := normalise_spec s
  rw [← Reference.value_replicate_zeroSym ha (12 - s.length), ← happ, Reference.value_append, hlen] at h
  split at h
  case h_1 m k hx ht =>
    rw [weightedSum_of_value hd hv hx, weightedSum_of_value hd hv ht]
    exact (Option.some.inj h).symm
  case h_2 => cases h

/-- Loading and adding set no flag. -/
theorem accumulate_loadDigits_error (t : Tables) (t12 : List Byte) (d : Datapath) :
    (accumulate t (loadDigits t t12 d)).error? = d.error? := by
  rw [accumulate_frame, loadDigits_frame]
  rfl

theorem max64_lt_iff (acc : Acc) : Config.max64 < acc ↔ 2 ^ 64 ≤ acc.toNat := by
  rw [BitVec.lt_def, show Config.max64.toNat = 2 ^ 64 - 1 from rfl]
  omega

/-- The bound check finds an overflow exactly when the sum exceeds `MAX64` or an excess digit is not 0
(41_decode.md R89). -/
theorem flagOverflow_error {d : Datapath} (h : d.error? = none) (t : Tables) (x : List Byte) :
    (d.flagOverflow t x).error? =
      if 2 ^ 64 ≤ d.acc.toNat ∨ t.weightedSum x ≠ 0 then some .overflow else none := by
  obtain ⟨hnodelim, hinv, hovf⟩ := (error_none_iff d).mp h
  simp [flagOverflow_spec, weightedSum_eq_zero_iff, max64_lt_iff, Datapath.error?, hnodelim, hinv, hovf]

theorem flagOverflow_acc (t : Tables) (x : List Byte) (d : Datapath) : (d.flagOverflow t x).acc = d.acc := by
  rw [flagOverflow_spec]

/-- A decode from cleared flags answers the reference answer, excess symbols included (41_decode.md R92, R94). -/
theorem decodeString_answer {t : Tables} (ht : t.RomOk) (hv : t.ValInverse) (s : List Byte) {d : Datapath}
    (hd : d.error? = none) : (decodeString t s d).2 = Reference.decodeAnswer t.sym s := by
  obtain ⟨ha, hpow, -, -⟩ := ht
  have hinvalid := any_invalid_iff_value_none ha.2.2.2.1 hv s
  cases h : Reference.value t.sym s with
  | none =>
    obtain ⟨hnodelim, -, -⟩ := (error_none_iff d).mp hd
    have herr : (d.flagInvalid t s).error? = some .invalidSymbol := by
      simp [flagInvalid_spec, hinvalid.mpr h, Datapath.error?, hnodelim]
    simp only [decodeString, Reference.decodeAnswer, h, herr]
  | some n =>
    have hvalid : s.any (fun c => !entryValid (t.readVal c)) = false := by simpa [h] using hinvalid
    have hflag : d.flagInvalid t s = d := by rw [flagInvalid_spec, hvalid, Bool.or_false]
    have hacc := accumulate_loadDigits_acc hpow (normalise_spec s).1 d
    have herr := flagOverflow_error ((accumulate_loadDigits_error t (normalise s).2 d).trans hd) t (normalise s).1
    have hn := value_normalise ha hv h
    rw [hacc] at herr
    simp only [decodeString, Reference.decodeAnswer, h, hflag, hd]
    by_cases hover : 2 ^ 64 ≤ t.weightedSum (normalise s).2 ∨ t.weightedSum (normalise s).1 ≠ 0
    · rw [if_pos hover] at herr
      simp only [herr, if_neg (show ¬ n < 2 ^ 64 by omega)]
    · rw [if_neg hover] at herr
      have hsum : n = (accumulate t (loadDigits t (normalise s).2 d)).acc.toNat := by omega
      simp only [herr, flagOverflow_acc, if_pos (show n < 2 ^ 64 by omega)]
      rw [hsum]
      rfl

/-- A decode with a domain prefix from cleared flags answers the reference answer (41_decode.md R96, R97). -/
theorem decodePrefixed_answer {t : Tables} (ht : t.RomOk) (hv : t.ValInverse) (s : List Byte) {d : Datapath}
    (hd : d.error? = none) : (decodePrefixed t s d).2 = Reference.decodePrefixedAnswer t.sym s := by
  rw [Reference.decodePrefixedAnswer_eq]
  cases h : afterDelim s with
  | none => simp [decodePrefixed, h, Datapath.flagNoDelim, Datapath.error?]
  | some rest => simp [decodePrefixed, h, Datapath.flagNoDelim, hd, decodeString_answer ht hv rest hd]

theorem clear_error (d : Datapath) : d.clear.error? = none := rfl

theorem answerDecoded_of_admits {s : State} {len : Nat} (h : s.caps.admitsInput len = true) (r : Response) :
    s.answerDecoded len r = .next (s.complete r) := by simp [State.answerDecoded, h]

end Sys2Proof.Machine

/-! ## Whole transactions -/

namespace Sys2Proof.Machine

/-- In every ready state of the invariant an instruction well formed for the capacities completes with its reference
answer (00_scope.md R13, 20_memory.md R43). -/
theorem exec_eq_complete_answer {s : State} {i : Instr} (hs : s.Inv) (hr : s.ready = true)
    (hi : i.wellFormed s.caps = true) : exec i s = .next (s.complete (Reference.answer s.tables.sym i)) := by
  obtain ⟨hrom, hval, -⟩ := hs
  cases i with
  | enc pad v =>
    have hv : v.toNat < 56 ^ 12 := Nat.lt_trans v.isLt (by decide)
    rw [exec, execEnc, whenReady_of_ready hr, answerEncoded_eq hrom, Reference.strip_paddedString hrom.1 hv]
    rfl
  | encp pad v pfx =>
    obtain ⟨hlen, hdelim⟩ : s.caps.admitsPrefix pfx.length = true ∧ (!pfx.contains Config.delim) = true := by
      simpa only [Instr.wellFormed, Bool.and_eq_true] using hi
    rw [exec, execEncp, whenReady_of_ready hr, answerEncoded_eq hrom, if_neg (by simp [hlen]), if_neg (by simpa using hdelim),
      Reference.answer, List.append_assoc, List.singleton_append]
  | dec str =>
    rw [exec, execDec, whenReady_of_ready hr, answerDecoded_of_admits hi,
      decodeString_answer hrom (hval hr) str (clear_error s.dp)]
    rfl
  | decp str =>
    rw [exec, execDecp, whenReady_of_ready hr, answerDecoded_of_admits hi,
      decodePrefixed_answer hrom (hval hr) str (clear_error s.dp)]
    rfl

/-- The end of a transaction keeps the invariant: it writes no table and no capacity. -/
theorem complete_inv {s : State} (hs : s.Inv) (r : Response) : (s.complete r).Inv := hs

/-- With `READY = 1` and the oldest pending request decoding to `i`, the step is `exec i` (70_reset_and_hazards.md R127). -/
theorem step_eq_exec {s : State} {q : Request} {rest : List Request} {i : Instr} (hr : s.ready = true)
    (hp : s.pending = q :: rest) (hq : decode q = .ok i) : step s = exec i s := by
  rw [step_of_pending hr hp, takeRequest, hq]

/-- Settles O58, by induction on the instructions pending: each step completes the oldest one with its reference answer. -/
theorem pendingRequestsAnsweredInOrder : Obligations.PendingRequestsAnsweredInOrder := by
  unfold Obligations.PendingRequestsAnsweredInOrder
  intro s is hs hr hp hwf
  induction is generalizing s with
  | nil => exact ⟨s, rfl, by simpa using hp, by simp, rfl, hr, rfl⟩
  | cons i is ih =>
    obtain ⟨q, rest, hpend, hq, hrest⟩ := List.map_eq_cons_iff.mp hp
    obtain ⟨hi, his⟩ := List.forall_mem_cons.mp hwf
    have hstep : step s = .next (s.complete (Reference.answer s.tables.sym i)) :=
      (step_eq_exec hr hpend hq).trans (exec_eq_complete_answer hs hr hi)
    obtain ⟨t, hrun, hpending, hresponses, hframe⟩ :=
      ih (s.complete (Reference.answer s.tables.sym i)) (complete_inv hs _) hr (by simpa [hpend] using hrest) his
    exact ⟨t, (run_succ_of_next is.length hstep).trans hrun, hpending, by simpa using hresponses, hframe⟩

end Sys2Proof.Machine

/-! ## Reset, the steps and the host's moves: the tables, `READY` and the invariant -/

namespace Sys2Proof.Machine

/-- The invariant speaks of the tables, `READY` and the capacities alone. -/
theorem inv_congr {s t : State} (htables : t.tables = s.tables) (hready : t.ready = s.ready) (hcaps : t.caps = s.caps) :
    t.Inv ↔ s.Inv := by rw [State.Inv, htables, hready, hcaps]

/-- The state after reset meets the invariant: its read-only tables hold their constants, and `READY = 0` asks nothing of
`VAL` (10_state.md R31). -/
theorem resetWith_inv {a : Config.Alphabet} {c : Config.Caps} (ha : a.Admissible) (hc : c.Admissible) :
    (State.resetWith a c).Inv :=
  ⟨⟨ha, rfl, rfl, rfl⟩, fun h => absurd h Bool.false_ne_true, hc⟩

theorem hostReset_inv {s : State} (hs : s.Inv) : s.hostReset.Inv := by
  obtain ⟨⟨ha, -, -, -⟩, -, hcaps⟩ := hs
  exact (inv_congr rfl rfl rfl).mp (resetWith_inv ha hcaps)

theorem romOk_distinct {t : Tables} (h : t.RomOk) : t.sym.Distinct := by
  obtain ⟨⟨-, -, -, hdistinct, -⟩, -, -, -⟩ := h
  exact hdistinct

/-- The initialiser's step establishes the part of the invariant that waits for `READY = 1` (70_reset_and_hazards.md R117). -/
theorem initialise_inv {s : State} (hs : s.Inv) : s.initialise.Inv := by
  obtain ⟨hrom, -, hcaps⟩ := hs
  exact ⟨(initialise_romOk s).mpr hrom, fun _ => initialise_valInverse (romOk_distinct hrom), by rwa [initialise_caps]⟩

/-- Every step ends with `READY = 1` (10_state.md R20). -/
theorem step_next_ready {s t : State} (h : step s = .next t) : t.ready = true := by
  obtain ⟨-, rfl⟩ | ⟨hr, -, rfl⟩ | ⟨hr, q, rest, i, r, -, -, -, rfl⟩ := step_next_cases h
  · exact initialise_ready s
  · exact hr
  · exact hr

/-- A step with `READY = 1` writes no table (10_state.md R16). -/
theorem step_next_tables {s t : State} (hr : s.ready = true) (h : step s = .next t) : t.tables = s.tables := by
  obtain ⟨h0, -⟩ | ⟨-, -, rfl⟩ | ⟨-, q, rest, i, r, -, -, -, rfl⟩ := step_next_cases h
  · exact absurd (hr.symm.trans h0) Bool.noConfusion
  · rfl
  · exact complete_tables s r

/-- A host move but a reset leaves the tables, `READY` and the capacities (70_reset_and_hazards.md R128). -/
theorem hostMove_frame {m : HostMove} (hm : m ≠ .reset) (s : State) :
    (s.hostMove m).2.tables = s.tables ∧ (s.hostMove m).2.ready = s.ready ∧ (s.hostMove m).2.caps = s.caps := by
  cases m with
  | present r => exact ⟨rfl, rfl, rfl⟩
  | takeResponse =>
    unfold State.hostMove
    cases s.responses <;> exact ⟨rfl, rfl, rfl⟩
  | readReady => exact ⟨rfl, rfl, rfl⟩
  | reset => exact absurd rfl hm

@[simp] theorem hostMove_reset (s : State) : (s.hostMove .reset).2 = s.hostReset := rfl

/-- The initialiser's step too leaves the read-only tables (10_state.md R16). -/
theorem step_next_rom {s t : State} (h : step s = .next t) :
    t.tables.sym = s.tables.sym ∧ t.tables.pow = s.tables.pow ∧ t.tables.thr = s.tables.thr ∧
      t.tables.thrTop = s.tables.thrTop := by
  cases hr : s.ready with
  | false =>
    obtain rfl := Host.Outcome.next.inj ((step_of_not_ready hr).symm.trans h)
    exact ⟨initialise_sym s, initialise_pow s, initialise_thr s, initialise_thrTop s⟩
  | true => simp only [step_next_tables hr h, and_self]

/-- A reset writes the constants that the invariant says the read-only tables hold already (10_state.md R31). -/
theorem hostReset_rom {s : State} (hs : s.tables.RomOk) :
    s.hostReset.tables.sym = s.tables.sym ∧ s.hostReset.tables.pow = s.tables.pow ∧
      s.hostReset.tables.thr = s.tables.thr ∧ s.hostReset.tables.thrTop = s.tables.thrTop := by
  obtain ⟨-, hpow, hthr, htop⟩ := hs
  exact ⟨hostReset_sym s, by rw [hostReset_pow, hpow], by rw [hostReset_thr, hthr], by rw [hostReset_thrTop, htop]⟩

/-- Settles O15, by the three things a step can do: the initialiser's step, nothing, or the end of a transaction. -/
theorem everyStepKeepsInvariant : Obligations.EveryStepKeepsInvariant := by
  unfold Obligations.EveryStepKeepsInvariant
  intro s t hs h
  obtain ⟨-, rfl⟩ | ⟨-, -, rfl⟩ | ⟨-, q, rest, i, r, -, -, -, rfl⟩ := step_next_cases h
  · exact initialise_inv hs
  · exact hs
  · exact complete_inv hs r

/-- Settles O11: each clause is a lemma about the step, the host's moves or the invariant. -/
theorem readyBitLifeCycle : Obligations.ReadyBitLifeCycle := by
  unfold Obligations.ReadyBitLifeCycle
  intro s
  refine ⟨hostReset_ready s, fun t => step_next_ready, fun m hm => (hostMove_frame hm s).2.1, rfl, fun hr => ?_, fun hr => ?_⟩
  · exact ⟨s.initialise, step_of_not_ready hr, initialise_pending s, initialise_responses s⟩
  · exact ⟨fun ⟨_, hval, _⟩ => hval hr, fun r rest i hp hd => step_eq_exec hr hp hd⟩

/-- Settles O13: no step and no host move writes a table but `VAL`, which with `READY = 1` is the inverse of `SYM`. -/
theorem tablesNeverMutated : Obligations.TablesNeverMutated := by
  unfold Obligations.TablesNeverMutated
  intro s ⟨hrom, hval, _⟩
  have hdistinct := romOk_distinct hrom
  refine ⟨fun t h => ?_, fun m => ?_, fun hr => ⟨alphabet_injective hdistinct, fun d => ?_, fun c hc => ?_⟩⟩
  · obtain ⟨hsym, hpow, hthr, htop⟩ := step_next_rom h
    exact ⟨hsym, hpow, hthr, htop, fun hr => congrArg Tables.val (step_next_tables hr h)⟩
  · by_cases hm : m = .reset
    · subst hm
      obtain ⟨hsym, hpow, hthr, htop⟩ := hostReset_rom hrom
      exact ⟨hsym, hpow, hthr, htop, fun hne => absurd rfl hne⟩
    · simp [(hostMove_frame hm s).1]
  · rw [(hval hr).1 d, entryDigit_validEntry]
    exact ⟨entryValid_validEntry _, Nat.mod_eq_of_lt (by omega)⟩
  · obtain ⟨d, hd, -⟩ | ⟨-, -, hinvalid, -⟩ := readVal_cases hdistinct (hval hr) c
    · exact ⟨d, hd⟩
    · exact absurd (hc.symm.trans hinvalid) Bool.noConfusion

/-- Settles O16: a reset starts from the invariant again, and the other moves leave all it speaks of. -/
theorem hostMovesKeepInvariant : Obligations.HostMovesKeepInvariant := by
  unfold Obligations.HostMovesKeepInvariant
  intro s m hs
  by_cases hm : m = .reset
  · rw [hm, hostMove_reset]
    exact hostReset_inv hs
  · obtain ⟨htables, hready, hcaps⟩ := hostMove_frame hm s
    exact (inv_congr htables hready hcaps).mpr hs

/-- Settles O9, by reading the reset state the model defines. -/
theorem resetValuesTheModelNames : Obligations.ResetValuesTheModelNames := by
  unfold Obligations.ResetValuesTheModelNames
  have hval : ∀ c : Byte, State.reset.tables.readVal c = 0#7 := fun c => Vector.getElem_replicate c.isLt
  exact ⟨hval, rfl, rfl, alphabetA0_admissible, rfl, rfl⟩

/-- Settles O14: `State.reset` is the reset state of the default alphabet, which is admissible. -/
theorem resetMeetsInvariant : Obligations.ResetMeetsInvariant := by
  unfold Obligations.ResetMeetsInvariant
  exact ⟨resetWith_inv alphabetA0_admissible rfl, fun _ _ => resetWith_inv⟩

end Sys2Proof.Machine

/-! ## What a transaction leaves, and what its response depends on -/

namespace Sys2Proof.Machine

/-- Settles O54, by the two things an execution can have done: the hold, or the end of one transaction. -/
theorem transactionFrame : Obligations.TransactionFrame := by
  unfold Obligations.TransactionFrame
  intro i s t h
  obtain ⟨hr, rfl⟩ | ⟨hr, r, rfl⟩ := exec_next_cases h
  · simp [hr]
  · simp [hr]

/-- A stage writes the digit of its own position only (40_encode.md R66). -/
theorem encodeStages_dig_of_notMem (t : Tables) (p : Fin 12) :
    ∀ (l : List (Fin 12)), p ∉ l → ∀ d : Datapath, (l.foldl (encodeStage t) d).dig[p.val] = d.dig[p.val]
  | [], _, _ => rfl
  | q :: l, h, d => by
    obtain ⟨hq, hl⟩ := not_or.mp (List.mem_cons.not.mp h)
    rw [List.foldl_cons, encodeStages_dig_of_notMem t p l hl, encodeStage_dig,
      Vector.getElem_set_ne _ _ (fun e => hq (Fin.ext e.symm))]

/-- The digit a run of stages leaves at one of its positions is what that stage finds in a remainder which the tables and
the first remainder determine, whatever else the datapath held. -/
theorem encodeStages_dig_of_mem (t : Tables) (p : Fin 12) :
    ∀ (l : List (Fin 12)), p ∈ l → ∀ v : Word,
      ∃ rem, ∀ d : Datapath, d.rem = v → (l.foldl (encodeStage t) d).dig[p.val] = (stageDigit t p rem).1
  | q :: l, h, v => by
    by_cases hl : p ∈ l
    · obtain ⟨rem, hrem⟩ := encodeStages_dig_of_mem t p l hl (v - (stageDigit t q v).2)
      exact ⟨rem, fun d hd => hrem (encodeStage t d q) (by rw [encodeStage_rem, hd])⟩
    · obtain rfl : p = q := (List.mem_cons.mp h).resolve_right hl
      refine ⟨v, fun d hd => ?_⟩
      rw [List.foldl_cons, encodeStages_dig_of_notMem t p l hl, encodeStage_dig, Vector.getElem_set_self, hd]

/-- The padded string is there for any tables, and the tables and the value determine it (20_memory.md R43, R48). -/
theorem encodePadded_eq_some (t : Tables) (v : Word) : ∃ s12, ∀ d, encodePadded t v d = some s12 := by
  have hmem : ∀ p : Fin 12, p ∈ positions := by decide
  choose rem hrem using fun p => encodeStages_dig_of_mem t p positions (hmem p) v
  refine ⟨positions.filterMap fun p => t.sym[(stageDigit t p (rem p)).1.toNat]?, fun d => ?_⟩
  have hdig : ∀ p : Fin 12, (encodePipeline t v d).dig[p.val] = (stageDigit t p (rem p)).1 :=
    fun p => hrem p { d with rem := v } rfl
  rw [encodePadded, emitSymbols_spec t _ _ fun p _ => by rw [hdig]; exact Nat.lt_succ_of_le (stageDigit_le t p _)]
  simp only [hdig]

theorem answerEncoded_of_some {s : State} {v : Word} {s12 : List Byte} (h : encodePadded s.tables v s.dp = some s12)
    (f : List Byte → List Byte) : s.answerEncoded v f = .next (s.complete (.okString (f s12))) := by
  rw [State.answerEncoded, h]

/-- The weighted sum reads the digit registers only (41_decode.md R88). -/
theorem accumulate_acc_congr (t : Tables) {d d' : Datapath} (h : d.dig = d'.dig) :
    (accumulate t d).acc = (accumulate t d').acc := by
  have hfold : ∀ (l : List (Fin 12)) (d d' : Datapath), d.dig = d'.dig → d.acc = d'.acc →
      (l.foldl (accumulateStep t) d).acc = (l.foldl (accumulateStep t) d').acc := by
    intro l
    induction l with
    | nil => exact fun _ _ _ hacc => hacc
    | cons p l ih =>
      intro d d' hdig hacc
      exact ih _ _ hdig (by rw [accumulateStep_acc, accumulateStep_acc, hdig, hacc])
  exact hfold positions _ _ h rfl

/-- All twelve digit registers are loaded, so the sum does not depend on what the datapath held (41_decode.md R87). -/
theorem accumulate_loadDigits_acc_congr (t : Tables) {t12 : List Byte} (h : t12.length = 12) (d d' : Datapath) :
    (accumulate t (loadDigits t t12 d)).acc = (accumulate t (loadDigits t t12 d')).acc := by
  refine accumulate_acc_congr t (Vector.ext fun p hp => ?_)
  exact (loadDigits_dig t t12 h d ⟨p, hp⟩).trans (loadDigits_dig t t12 h d' ⟨p, hp⟩).symm

/-- The answer of a decode from cleared flags, for any tables: InvalidSymbol, Overflow, or the low 64 bits of the sum
(60_exceptions.md R108). -/
theorem decodeString_of_cleared (t : Tables) (s : List Byte) {d : Datapath} (hd : d.error? = none) :
    (decodeString t s d).2 =
      if s.any (fun c => !entryValid (t.readVal c)) then .err .invalidSymbol
      else if 2 ^ 64 ≤ (accumulate t (loadDigits t (normalise s).2 d)).acc.toNat ∨ t.weightedSum (normalise s).1 ≠ 0 then
        .err .overflow
      else .okValue ((accumulate t (loadDigits t (normalise s).2 d)).acc.extractLsb' 0 64) := by
  cases hinvalid : s.any (fun c => !entryValid (t.readVal c)) with
  | true =>
    obtain ⟨hnodelim, -, -⟩ := (error_none_iff d).mp hd
    have herr : (d.flagInvalid t s).error? = some .invalidSymbol := by
      simp [flagInvalid_spec, hinvalid, Datapath.error?, hnodelim]
    simp only [decodeString, herr, if_true]
  | false =>
    have hflag : d.flagInvalid t s = d := by rw [flagInvalid_spec, hinvalid, Bool.or_false]
    have herr := flagOverflow_error ((accumulate_loadDigits_error t (normalise s).2 d).trans hd) t (normalise s).1
    simp only [decodeString, hflag, hd, herr, Bool.false_eq_true, if_false, flagOverflow_acc]
    split_ifs <;> rfl

/-- From cleared flags the answer of a decode does not depend on what the datapath held (10_state.md R21). -/
theorem decodeString_congr (t : Tables) (s : List Byte) {d d' : Datapath} (hd : d.error? = none) (hd' : d'.error? = none) :
    (decodeString t s d).2 = (decodeString t s d').2 := by
  rw [decodeString_of_cleared t s hd, decodeString_of_cleared t s hd',
    accumulate_loadDigits_acc_congr t (normalise_spec s).1 d d']

theorem decodePrefixed_congr (t : Tables) (s : List Byte) {d d' : Datapath} (hd : d.error? = none)
    (hd' : d'.error? = none) : (decodePrefixed t s d).2 = (decodePrefixed t s d').2 := by
  cases h : afterDelim s with
  | none => simp [decodePrefixed, h, Datapath.flagNoDelim, Datapath.error?]
  | some rest => simp [decodePrefixed, h, Datapath.flagNoDelim, hd, hd', decodeString_congr t rest hd hd']

/-- A decode transaction whose answer does not depend on what the datapath held under its cleared flags completes with the
answer that the tables determine, or is refused for its length, by the capacities alone (20_memory.md R36). -/
theorem decodeTransaction_determined (t : Tables) (c : Config.Caps) (len : Nat) (f : Tables → Datapath → Response)
    (hf : ∀ d d' : Datapath, d.error? = none → d'.error? = none → f t d = f t d') :
    (∃ r, ∀ s : State, s.ready = true → s.tables = t → s.caps = c →
      s.whenReady (s.answerDecoded len (f s.tables s.dp.clear)) = .next (s.complete r)) ∨
    (∃ q, ∀ s : State, s.ready = true → s.tables = t → s.caps = c →
      s.whenReady (s.answerDecoded len (f s.tables s.dp.clear)) = .refused q) := by
  cases hlen : c.admitsInput len with
  | true =>
    refine .inl ⟨f t Datapath.reset.clear, fun s hr ht hc => ?_⟩
    rw [whenReady_of_ready hr, ht, hf _ _ (clear_error s.dp) (clear_error Datapath.reset), answerDecoded_of_admits (hc ▸ hlen)]
  | false =>
    refine .inr ⟨.stringTooLong, fun s hr _ hc => ?_⟩
    rw [whenReady_of_ready hr, State.answerDecoded, hc, hlen]
    rfl

/-- The tables and the capacities determine what an instruction does in a ready state: the response it completes with, or
the reason of its refusal (20_memory.md R43). -/
theorem exec_determined (i : Instr) (t : Tables) (c : Config.Caps) :
    (∃ r, ∀ s : State, s.ready = true → s.tables = t → s.caps = c → exec i s = .next (s.complete r)) ∨
    (∃ q, ∀ s : State, s.ready = true → s.tables = t → s.caps = c → exec i s = .refused q) := by
  cases i with
  | enc pad v =>
    obtain ⟨s12, hs12⟩ := encodePadded_eq_some t v
    refine .inl ⟨.okString (if pad then s12 else strip s12), fun s hr ht _ => ?_⟩
    rw [exec, execEnc, whenReady_of_ready hr, answerEncoded_of_some (ht ▸ hs12 s.dp)]
  | encp pad v pfx =>
    obtain ⟨s12, hs12⟩ := encodePadded_eq_some t v
    by_cases hlen : c.admitsPrefix pfx.length = true
    · by_cases hdelim : pfx.contains Config.delim = true
      · refine .inr ⟨.delimiterInPrefix, fun s hr _ hc => ?_⟩
        rw [exec, execEncp, whenReady_of_ready hr, hc, if_neg (by simp [hlen]), if_pos hdelim]
      · refine .inl ⟨.okString (pfx ++ [Config.delim] ++ s12), fun s hr ht hc => ?_⟩
        rw [exec, execEncp, whenReady_of_ready hr, hc, if_neg (by simp [hlen]), if_neg hdelim,
          answerEncoded_of_some (ht ▸ hs12 s.dp)]
    · refine .inr ⟨.stringTooLong, fun s hr _ hc => ?_⟩
      rw [exec, execEncp, whenReady_of_ready hr, hc, if_pos (by simpa using hlen)]
  | dec str =>
    exact decodeTransaction_determined t c str.length (fun t d => (decodeString t str d).2) fun _ _ => decodeString_congr t str
  | decp str =>
    exact decodeTransaction_determined t c str.length (fun t d => (decodePrefixed t str d).2) fun _ _ =>
      decodePrefixed_congr t str

/-- Settles O57: what the tables and capacities determine is the same in both states. -/
theorem responseDependsOnRequestOnly : Obligations.ResponseDependsOnRequestOnly := by
  unfold Obligations.ResponseDependsOnRequestOnly
  intro i s s' hr hr' ht hc
  obtain ⟨r, h⟩ | ⟨q, h⟩ := exec_determined i s.tables s.caps
  · exact .inl ⟨r, h s hr rfl rfl, h s' hr' ht.symm hc.symm⟩
  · exact .inr ⟨q, h s hr rfl rfl, h s' hr' ht.symm hc.symm⟩

end Sys2Proof.Machine

/-! ## Table reads, and that no step reads outside a table -/

namespace Sys2Proof.Machine

theorem readPow_toNat {t : Tables} (ht : t.RomOk) (p : Fin 12) : (t.readPow p).toNat = 56 ^ p.val := by
  obtain ⟨-, hpow, -, -⟩ := ht
  rw [Tables.readPow, hpow]
  exact powTable_toNat p

/-- Positions 0 to 10 read their row of the multiplier array (10_state.md R19). -/
theorem readThr_of_lt (t : Tables) {p : Fin 12} (hp : p.val < 11) (m : Nat) : t.readThr p m = (t.thr[p.val])[m]? :=
  dif_pos hp

/-- Position 11 reads the two thresholds that exist there (10_state.md R19). -/
theorem readThr_eleven (t : Tables) (m : Nat) : t.readThr 11 m = t.thrTop[m]? := rfl

/-- Settles O21: positions 0 to 10 and position 11 are held in tables of their own, whose entries are exact and whose
sizes bound the multipliers. -/
theorem powerAndThresholdReads : Obligations.PowerAndThresholdReads := by
  unfold Obligations.PowerAndThresholdReads
  intro t ht
  refine ⟨readPow_toNat ht, fun p m h => ?_, fun p m h => ?_⟩
  · obtain ⟨-, -, hthr, htop⟩ := ht
    obtain ⟨hp, hm⟩ | ⟨hp, hm⟩ := h
    · have hp : p.val < 11 := Nat.lt_succ_of_le hp
      have hm : m < 56 := Nat.lt_succ_of_le hm
      refine ⟨Config.thrTable[p.val][m], ?_, thrTable_toNat ⟨p.val, hp⟩ ⟨m, hm⟩⟩
      rw [readThr_of_lt t hp, hthr, Vector.getElem?_eq_getElem hm]
    · obtain rfl : p = 11 := Fin.ext hp
      have hm : m < 2 := Nat.lt_succ_of_le hm
      refine ⟨Config.thrTopTable[m], ?_, thrTopTable_toNat ⟨m, hm⟩⟩
      rw [readThr_eleven, htop, Vector.getElem?_eq_getElem hm]
  · obtain ⟨hp, hm⟩ | ⟨hp, hm⟩ := h
    · rw [readThr_of_lt t (Nat.lt_succ_of_le hp)]
      exact Vector.getElem?_eq_none hm
    · obtain rfl : p = 11 := Fin.ext hp
      rw [readThr_eleven]
      exact Vector.getElem?_eq_none hm

/-- Settles O23: the state after a step keeps the invariant and is ready, so its `VAL` is the inverse of its `SYM`. -/
theorem valueReadsAreTotal : Obligations.ValueReadsAreTotal := by
  unfold Obligations.ValueReadsAreTotal
  intro s t hs h c
  obtain ⟨-, hval, -⟩ := everyStepKeepsInvariant s t hs h
  obtain ⟨hvalid, hinvalid⟩ := hval (step_next_ready h)
  by_cases hc : c ∈ t.tables.sym.toList
  · obtain ⟨d, rfl⟩ := mem_alphabet.mp hc
    exact .inl ⟨d, rfl, hvalid d⟩
  · exact .inr ⟨hc, hinvalid c hc⟩

/-- A request is held while `READY = 0`, whatever it is (70_reset_and_hazards.md R119). -/
theorem exec_of_not_ready {s : State} (h : s.ready = false) (i : Instr) : exec i s = .next s := by
  cases i <;> exact whenReady_of_not_ready h _

/-- No execution faults: in a ready state it completes or is refused (20_memory.md R48). -/
theorem exec_ne_fault (i : Instr) (s : State) (f : Fault) : exec i s ≠ .fault f := by
  cases hr : s.ready with
  | false => rw [exec_of_not_ready hr]; nofun
  | true =>
    obtain ⟨r, h⟩ | ⟨q, h⟩ := exec_determined i s.tables s.caps
    · rw [h s hr rfl rfl]; nofun
    · rw [h s hr rfl rfl]; nofun

theorem takeRequest_ne_fault (q : Request) (s : State) (f : Fault) : takeRequest q s ≠ .fault f := by
  unfold takeRequest
  split
  · exact exec_ne_fault _ s f
  · nofun

/-- Settles O53, by the agent whose step it is: only the codec's reads `SYM`, and every digit it reads at is at most 55,
whatever the tables hold. -/
theorem stepNeverFaults : Obligations.StepNeverFaults := by
  unfold Obligations.StepNeverFaults
  intro s f
  cases hr : s.ready with
  | false => rw [step_of_not_ready hr]; nofun
  | true =>
    cases hp : s.pending with
    | nil => rw [step_of_idle hr hp]; nofun
    | cons q rest => rw [step_of_pending hr hp]; exact takeRequest_ne_fault q s f

/-- Settles O22: `SYM` has 56 entries, so a digit addresses one exactly when it is below 56. -/
theorem symbolReads : Obligations.SymbolReads := by
  unfold Obligations.SymbolReads
  intro t d
  exact ⟨fun h => Vector.getElem?_eq_getElem h, fun h => Vector.getElem?_eq_none h⟩

end Sys2Proof.Machine

/-! ## Requests and their encoding, and the response to each -/

namespace Sys2Proof

/-- The fields of a request that an instruction's operation uses hold its operands (30_encoding.md R58, R61). -/
def Instr.OperandsFrom (i : Instr) (r : Request) : Prop :=
  match i with
  | .enc _ v => v = r.value
  | .encp _ v pfx => v = r.value ∧ pfx = r.str
  | .dec str => str = r.str
  | .decp str => str = r.str

/-- A request decodes to an instruction exactly when it has the instruction's header byte and its operands in the fields
that the operation uses. -/
theorem decode_eq_ok_iff (r : Request) (i : Instr) :
    decode r = .ok i ↔ (encode i).hdr = r.hdr ∧ i.OperandsFrom r := by
  obtain ⟨h, v, x⟩ := r
  constructor
  · intro hd
    rw [decode_by_header] at hd
    split_ifs at hd with h0 h4 h1 h5 h2 h3 <;> obtain rfl := Except.ok.inj hd
    · exact ⟨h0.symm, rfl⟩
    · exact ⟨h4.symm, rfl⟩
    · exact ⟨h1.symm, rfl, rfl⟩
    · exact ⟨h5.symm, rfl, rfl⟩
    · exact ⟨h2.symm, rfl⟩
    · exact ⟨h3.symm, rfl⟩
  · rintro ⟨hhdr, hops⟩
    obtain rfl : (encode i).hdr = h := hhdr
    cases i with
    | enc pad w =>
      obtain rfl : w = v := hops
      cases pad with
      | false => exact decode_by_header 0#8 w x
      | true => exact decode_by_header 4#8 w x
    | encp pad w pfx =>
      obtain ⟨rfl, rfl⟩ : w = v ∧ pfx = x := hops
      cases pad with
      | false => exact decode_by_header 1#8 w pfx
      | true => exact decode_by_header 5#8 w pfx
    | dec str =>
      obtain rfl : str = x := hops
      exact decode_by_header 2#8 v str
    | decp str =>
      obtain rfl : str = x := hops
      exact decode_by_header 3#8 v str

theorem encode_operandsFrom (i : Instr) : i.OperandsFrom (encode i) := by
  cases i with
  | encp pad v pfx => exact ⟨rfl, rfl⟩
  | _ => rfl

/-- Settles O1: both directions are the decoder's characterisation by header byte and operands. -/
theorem decodeInvertsEncode : Obligations.DecodeInvertsEncode := by
  unfold Obligations.DecodeInvertsEncode
  refine ⟨fun i => (decode_eq_ok_iff _ i).mpr ⟨rfl, encode_operandsFrom i⟩, fun r i hd => ?_⟩
  obtain ⟨hhdr, hops⟩ := (decode_eq_ok_iff r i).mp hd
  refine ⟨hhdr, ?_, ?_, ?_⟩
  · rintro pad v rfl; exact hops
  · rintro pad v pfx rfl; exact hops
  · rintro str (rfl | rfl) <;> exact hops

/-- The four rows of the opcode map are disjoint and together select the bytes up to 0x05 (30_encoding.md R58). -/
theorem selectedRows_count : ∀ h : Byte,
    ([selects h 0xFB#8 0x00#8, selects h 0xFB#8 0x01#8, selects h 0xFF#8 0x02#8, selects h 0xFF#8 0x03#8].filter
      (fun b => b)).length = if h.toNat ≤ 5 then 1 else 0 := by decide

/-- Settles O2: the decoder tries the rows in order, and a byte that one row selects no row before it selects. -/
theorem opcodeMapSelectsOperation : Obligations.OpcodeMapSelectsOperation := by
  unfold Obligations.OpcodeMapSelectsOperation
  have hmask : ∀ h : Byte, h &&& 0xFF#8 = h := fun h => BitVec.and_allOnes
  refine ⟨fun r hr => ?_, fun r hr => ?_, fun r hr => ?_, fun r hr => ?_, selectedRows_count⟩
  · simp [decode, selects, hr, hdrPad]
  · simp [decode, selects, hr, hdrPad]
  · exact (decode_eq_ok_iff r _).mpr ⟨hr.symm.trans (hmask r.hdr), rfl⟩
  · exact (decode_eq_ok_iff r _).mpr ⟨hr.symm.trans (hmask r.hdr), rfl⟩

/-- Which header bytes are illegal, by their fields (30_encoding.md R59). -/
theorem illegalHeader_iff_fields : ∀ h : Byte,
    6 ≤ h.toNat ↔ hdrRsv h ≠ 0#5 ∨ ((hdrOp h = 0b10#2 ∨ hdrOp h = 0b11#2) ∧ hdrPad h = true) := by decide

theorem legalHeader_cases : ∀ h : Byte, h.toNat ≤ 5 → h = 0#8 ∨ h = 1#8 ∨ h = 2#8 ∨ h = 3#8 ∨ h = 4#8 ∨ h = 5#8 := by
  decide

theorem decode_of_legalHeader {r : Request} (h : r.hdr.toNat ≤ 5) : ∃ i, decode r = .ok i := by
  obtain ⟨hdr, v, x⟩ := r
  rcases legalHeader_cases hdr h with rfl | rfl | rfl | rfl | rfl | rfl <;> exact ⟨_, decode_by_header _ v x⟩

theorem decode_of_illegalHeader {r : Request} (h : 6 ≤ r.hdr.toNat) : decode r = .error (.illegalHeader r.hdr) := by
  have hne : ∀ k : Byte, k.toNat ≤ 5 → r.hdr ≠ k := fun k hk e => by rw [e] at h; omega
  rw [decode_by_header, if_neg (hne _ (by decide)), if_neg (hne _ (by decide)), if_neg (hne _ (by decide)),
    if_neg (hne _ (by decide)), if_neg (hne _ (by decide)), if_neg (hne _ (by decide))]

/-- The decoder reads `VALUE` only for `OP` 00 and 01, and `STR` only for `OP` other than 00 (30_encoding.md R61). -/
theorem decode_congr {h : Byte} {v v' : Word} {x x' : List Byte} (hv : hdrOp h = 0b00#2 ∨ hdrOp h = 0b01#2 → v = v')
    (hx : hdrOp h ≠ 0b00#2 → x = x') : decode ⟨h, v, x⟩ = decode ⟨h, v', x'⟩ := by
  rw [decode_by_header, decode_by_header]
  split_ifs with h0 h4 h1 h5 h2 h3
  · subst h0; rw [hv (by decide)]
  · subst h4; rw [hv (by decide)]
  · subst h1; rw [hv (by decide), hx (by decide)]
  · subst h5; rw [hv (by decide), hx (by decide)]
  · subst h2; rw [hx (by decide)]
  · subst h3; rw [hx (by decide)]
  · rfl

/-- Settles O5, by running the decoder on the nine words. -/
theorem tableWordsDecode : Obligations.TableWordsDecode := by
  unfold Obligations.TableWordsDecode
  decide

end Sys2Proof

namespace Sys2Proof.Machine

/-- Settles O3: the decoder refuses the illegal bytes by name, and the step that takes the request gives that reason. -/
theorem illegalHeaderRefused : Obligations.IllegalHeaderRefused := by
  unfold Obligations.IllegalHeaderRefused
  refine fun r => ⟨illegalHeader_iff_fields r.hdr, decode_of_legalHeader, fun h => ?_⟩
  have hd := decode_of_illegalHeader h
  refine ⟨hd, fun s rest hr hp => ?_⟩
  rw [step_of_pending hr hp, takeRequest, hd]

/-- An execution in a ready state does not look at the request it takes out of the queue. -/
theorem exec_pending_head {s : State} (hr : s.ready = true) (i : Instr) (q q' : Request) (rest : List Request) :
    exec i { s with pending := q :: rest } = exec i { s with pending := q' :: rest } := by
  obtain ⟨r, h⟩ | ⟨f, h⟩ := exec_determined i s.tables s.caps
  · rw [h { s with pending := q :: rest } hr rfl rfl, h { s with pending := q' :: rest } hr rfl rfl]
    rfl
  · rw [h { s with pending := q :: rest } hr rfl rfl, h { s with pending := q' :: rest } hr rfl rfl]

/-- The steps that take two requests which decode alike have the same outcome. -/
theorem step_congr_of_decode_eq {s : State} (hr : s.ready = true) {q q' : Request} (hq : decode q = decode q')
    (rest : List Request) : step { s with pending := q :: rest } = step { s with pending := q' :: rest } := by
  rw [step_of_pending (s := { s with pending := q :: rest }) hr rfl,
    step_of_pending (s := { s with pending := q' :: rest }) hr rfl, takeRequest, takeRequest, hq]
  cases decode q' with
  | ok i => exact exec_pending_head hr i q q' rest
  | error e => rfl

/-- Settles O4: requests that differ in an unused field decode alike, so the steps that take them have one outcome. -/
theorem unusedFieldsIgnored : Obligations.UnusedFieldsIgnored := by
  unfold Obligations.UnusedFieldsIgnored
  refine ⟨fun h v x x' hop => ?_, fun h v v' x hop => ?_⟩
  · have hd : decode ⟨h, v, x⟩ = decode ⟨h, v, x'⟩ := decode_congr (fun _ => rfl) (fun hne => absurd hop hne)
    exact ⟨hd, fun s rest hr => step_congr_of_decode_eq hr hd rest⟩
  · have hunused : ¬ (hdrOp h = 0b00#2 ∨ hdrOp h = 0b01#2) := by
      rcases hop with hop | hop <;> rw [hop] <;> decide
    have hd : decode ⟨h, v, x⟩ = decode ⟨h, v', x⟩ := decode_congr (fun hused => absurd hused hunused) (fun _ => rfl)
    exact ⟨hd, fun s rest hr => step_congr_of_decode_eq hr hd rest⟩

/-- The two fields of the status byte (30_encoding.md R57). -/
theorem stat_fields (r : Response) : r.stat.extractLsb' 2 6 = 0#6 ∧ r.stat.extractLsb' 0 2 = r.errBits := by
  have hfields : ∀ b : BitVec 2, (0#6 ++ b).extractLsb' 2 6 = 0#6 ∧ (0#6 ++ b).extractLsb' 0 2 = b := by decide
  exact hfields r.errBits

theorem stat_of_success {r : Response} (h : r.errBits = 0b00#2) : r.stat = 0x00#8 := by
  rw [Response.stat, h]
  rfl

theorem answerEncoded_next {s t : State} {v : Word} {f : List Byte → List Byte} (h : s.answerEncoded v f = .next t) :
    ∃ str, t = s.complete (.okString str) := by
  obtain ⟨s12, -, hnext⟩ | ⟨-, hfault⟩ := answerEncoded_cases s v f
  · exact ⟨f s12, Host.Outcome.next.inj (h.symm.trans hnext)⟩
  · cases h.symm.trans hfault

/-- An `ENC` or `ENCP` that completes answers a string (60_exceptions.md R105). -/
theorem execEncode_next {s t : State} {pad : Bool} {v : Word} {pfx : List Byte} (hr : s.ready = true)
    (h : exec (.enc pad v) s = .next t ∨ exec (.encp pad v pfx) s = .next t) :
    ∃ str, t = s.complete (.okString str) := by
  rcases h with h | h
  · rw [exec, execEnc, whenReady_of_ready hr] at h
    exact answerEncoded_next h
  · rw [exec, execEncp, whenReady_of_ready hr] at h
    split_ifs at h
    exact answerEncoded_next h

/-- Settles O46: the codes are read off the responses, and what `ENC` and `ENCP` answer is a string. -/
theorem statusByteCodes : Obligations.StatusByteCodes := by
  unfold Obligations.StatusByteCodes
  refine ⟨stat_fields, fun _ => stat_of_success rfl, fun _ => stat_of_success rfl, rfl, rfl, rfl, fun s t pad v pfx hr h => ?_⟩
  obtain ⟨str, rfl⟩ := execEncode_next hr h
  exact ⟨.okString str, complete_responses s _, stat_of_success rfl⟩

/-- Settles O55, by the three things a step can do: only the end of a transaction takes a request or answers one. -/
theorem oneResponsePerAcceptedRequest : Obligations.OneResponsePerAcceptedRequest := by
  unfold Obligations.OneResponsePerAcceptedRequest
  intro s t h
  obtain ⟨hr, rfl⟩ | ⟨-, hp, rfl⟩ | ⟨hr, q, rest, i, r, hp, -, -, rfl⟩ := step_next_cases h
  · exact .inr ⟨initialise_pending s, initialise_responses s, fun hr' => absurd (hr'.symm.trans hr) Bool.noConfusion⟩
  · exact .inr ⟨rfl, rfl, fun _ => hp⟩
  · exact .inl ⟨q, r, hr, by rw [complete_pending, hp, List.tail_cons], complete_responses s r⟩

end Sys2Proof.Machine

/-! ## The round trip: the string of an encode has the value encoded -/

namespace Sys2Proof.Machine

theorem take_leadingZeros (s : List Byte) :
    s.take (leadingZeros s) = List.replicate (leadingZeros s) Config.zeroSym := by
  induction s with
  | nil => rfl
  | cons c cs ih =>
    by_cases hc : c = Config.zeroSym
    · simp [leadingZeros, hc, ih, List.replicate_succ]
    · simp [leadingZeros, hc]

/-- What the strip rule takes off is zero symbols (40_encode.md R75). -/
theorem exists_replicate_append_strip (s : List Byte) : ∃ n, List.replicate n Config.zeroSym ++ strip s = s := by
  have hdrop : ∀ k, k ≤ leadingZeros s → List.replicate k Config.zeroSym ++ s.drop k = s := fun k hk => by
    have htake : s.take k = List.replicate k Config.zeroSym := by
      rw [← Nat.min_eq_left hk, ← List.take_take, take_leadingZeros, List.take_replicate]
    rw [← htake, List.take_append_drop]
  unfold strip
  split
  · exact ⟨_, hdrop _ (by omega)⟩
  · exact ⟨_, hdrop _ (Nat.le_refl _)⟩

theorem strip_length_le (s : List Byte) : (strip s).length ≤ s.length := by
  obtain ⟨n, hn⟩ := exists_replicate_append_strip s
  have := congrArg List.length hn
  rw [List.length_append] at this
  omega

end Sys2Proof.Machine

namespace Sys2Proof.Reference

open Machine

/-- A 64-bit value has at most twelve base-56 digits (40_encode.md R76). -/
theorem word_lt_pow (v : Word) : v.toNat < 56 ^ 12 := Nat.lt_trans v.isLt (by decide)

/-- A symbol's place in an alphabet of distinct symbols is its digit. -/
theorem idxOf_symbol {a : Config.Alphabet} (h : a.Distinct) (d : Nat) (hd : d < 56) : a.toList.idxOf? a[d] = some d := by
  refine List.idxOf?_eq_some_iff.mpr ⟨by simpa using hd, by simp, fun j hj e => ?_⟩
  have hjd := alphabet_injective h ⟨j, by omega⟩ ⟨d, hd⟩ (by simpa using e)
  exact absurd (congrArg Fin.val hjd) (Nat.ne_of_lt hj)

/-- The last `n` symbols of the padded string have the value that the digits below position `n` make. -/
theorem value_paddedString_drop {a : Config.Alphabet} (h : a.Distinct) (v : Nat) :
    ∀ n, n ≤ 12 → value a ((paddedString a v).drop (12 - n)) = some (v % 56 ^ n)
  | 0, _ => by rw [List.drop_of_length_le (by simp), value, Nat.pow_zero, Nat.mod_one]
  | n + 1, hn => by
    have hlen : ((paddedString a v).drop (12 - n)).length = n := by simp; omega
    rw [List.drop_eq_getElem_cons (by simp; omega), show 12 - (n + 1) + 1 = 12 - n by omega, paddedString_getElem, value,
      idxOf_symbol h, value_paddedString_drop h v n (by omega), hlen, Nat.mod_pow_succ, digit,
      show 11 - (12 - (n + 1)) = n by omega]
    simp only [Option.some.injEq]
    ring

theorem value_paddedString {a : Config.Alphabet} (h : a.Distinct) {v : Nat} (hv : v < 56 ^ 12) :
    value a (paddedString a v) = some v := by
  simpa only [Nat.mod_eq_of_lt hv, Nat.sub_self, List.drop_zero] using value_paddedString_drop h v 12 (Nat.le_refl 12)

/-- The unpadded string has the value of the padded one, from which it lacks leading zero symbols alone. -/
theorem value_unpaddedString {a : Config.Alphabet} (ha : a.Admissible) {v : Nat} (hv : v < 56 ^ 12) :
    value a (unpaddedString a v) = some v := by
  obtain ⟨n, hn⟩ := exists_replicate_append_strip (paddedString a v)
  have ⟨_, _, _, hdistinct, _⟩ := ha
  rw [← strip_paddedString ha hv, ← value_replicate_zeroSym ha n, hn, value_paddedString hdistinct hv]

theorem decodeAnswer_of_value {a : Config.Alphabet} {s : List Byte} {v : Word} (h : value a s = some v.toNat) :
    decodeAnswer a s = .okValue v := by
  simp only [decodeAnswer, h, if_pos v.isLt, BitVec.ofNat_toNat, BitVec.setWidth_eq]

theorem decodeAnswer_paddedString {a : Config.Alphabet} (ha : a.Admissible) (v : Word) :
    decodeAnswer a (paddedString a v.toNat) = .okValue v := by
  have ⟨_, _, _, hdistinct, _⟩ := ha
  exact decodeAnswer_of_value (value_paddedString hdistinct (word_lt_pow v))

theorem decodeAnswer_unpaddedString {a : Config.Alphabet} (ha : a.Admissible) (v : Word) :
    decodeAnswer a (unpaddedString a v.toNat) = .okValue v :=
  decodeAnswer_of_value (value_unpaddedString ha (word_lt_pow v))

/-- The string that `ENC` answers (40_encode.md R73). -/
def encodedString (a : Config.Alphabet) (pad : Bool) (v : Nat) : List Byte :=
  if pad then paddedString a v else unpaddedString a v

theorem encodedString_length_le (a : Config.Alphabet) (pad : Bool) (v : Nat) : (encodedString a pad v).length ≤ 12 := by
  cases pad <;> simp [encodedString, unpaddedString]

/-- `DEC` of the string of `ENC` answers the value, for both paddings (40_encode.md R83). -/
theorem decodeAnswer_encodedString {a : Config.Alphabet} (ha : a.Admissible) (pad : Bool) (v : Word) :
    decodeAnswer a (encodedString a pad v.toNat) = .okValue v := by
  cases pad with
  | false => exact decodeAnswer_unpaddedString ha v
  | true => exact decodeAnswer_paddedString ha v

/-- `DECP` of a prefix free of the delimiter, the delimiter and a string answers what `DEC` of the string does
(41_decode.md R98). -/
theorem decodePrefixedAnswer_append (a : Config.Alphabet) {pfx : List Byte} (h : Config.delim ∉ pfx) (s : List Byte) :
    decodePrefixedAnswer a (pfx ++ Config.delim :: s) = decodeAnswer a s := by
  rw [decodePrefixedAnswer_eq, afterDelim_append pfx s h, Option.elim_some]

end Sys2Proof.Reference

namespace Sys2Proof.Machine

theorem admitsInput_mono {c : Config.Caps} {m n : Nat} (h : c.admitsInput n = true) (hmn : m ≤ n) :
    c.admitsInput m = true := by
  unfold Config.Caps.admitsInput at h ⊢
  cases hmax : c.inMax with
  | none => rfl
  | some k =>
    simp only [hmax, decide_eq_true_eq] at h ⊢
    exact Nat.le_trans hmn h

theorem encp_wellFormed_iff (c : Config.Caps) (pad : Bool) (v : Word) (pfx : List Byte) :
    (Instr.encp pad v pfx).wellFormed c = true ↔ c.admitsPrefix pfx.length = true ∧ Config.delim ∉ pfx := by
  simp [Instr.wellFormed]

section

variable {s : State} (hs : s.Inv) (hr : s.ready = true)

include hs hr

theorem exec_enc (pad : Bool) (v : Word) :
    exec (.enc pad v) s = .next (s.complete (.okString (Reference.encodedString s.tables.sym pad v.toNat))) :=
  exec_eq_complete_answer (i := .enc pad v) hs hr rfl

theorem exec_encp {pfx : List Byte} (hlen : s.caps.admitsPrefix pfx.length = true) (hdelim : Config.delim ∉ pfx)
    (pad : Bool) (v : Word) :
    exec (.encp pad v pfx) s =
      .next (s.complete (.okString (pfx ++ Config.delim :: Reference.paddedString s.tables.sym v.toNat))) :=
  exec_eq_complete_answer hs hr ((encp_wellFormed_iff s.caps pad v pfx).mpr ⟨hlen, hdelim⟩)

theorem exec_dec {str : List Byte} (hlen : s.caps.admitsInput str.length = true) :
    exec (.dec str) s = .next (s.complete (Reference.decodeAnswer s.tables.sym str)) :=
  exec_eq_complete_answer (i := .dec str) hs hr hlen

theorem exec_decp {str : List Byte} (hlen : s.caps.admitsInput str.length = true) :
    exec (.decp str) s = .next (s.complete (Reference.decodePrefixedAnswer s.tables.sym str)) :=
  exec_eq_complete_answer (i := .decp str) hs hr hlen

end

/-- Settles O59: both transactions complete with their reference answers, and the reference decode of an encoded string
is its value. -/
theorem roundTrip : Obligations.RoundTrip := by
  unfold Obligations.RoundTrip
  intro s v pad hs hr
  have ⟨⟨ha, _⟩, _, hcaps⟩ := hs
  refine ⟨⟨_, _, exec_enc hs hr pad v, rfl, ?_⟩, fun pfx hdelim hpfx hin =>
    ⟨_, _, exec_encp hs hr hpfx hdelim pad v, rfl, ?_⟩⟩
  · rw [exec_dec (complete_inv hs _) hr (admitsInput_mono hcaps (Reference.encodedString_length_le _ pad v.toNat)),
      complete_tables, Reference.decodeAnswer_encodedString ha pad v]
  · rw [exec_decp (complete_inv hs _) hr (by simpa using hin), complete_tables,
      Reference.decodePrefixedAnswer_append _ hdelim, Reference.decodeAnswer_paddedString ha v]

end Sys2Proof.Machine

/-! ## The encode stages, for every remainder, and the pipeline's digits -/

namespace Sys2Proof.Machine

/-- The scan of a row of the multiplier array takes the last multiplier when its product does not exceed the remainder. -/
theorem largestMultiplier_eq_last (p : Fin 11) {rem : Word} (h : 55 * 56 ^ p.val ≤ rem.toNat) :
    (largestMultiplier Config.thrTable[p.val] rem 55 (by decide)).val = 55 := by
  obtain ⟨hle, -, hlarger⟩ := largestMultiplier_spec Config.thrTable[p.val] rem 55 (by decide)
  by_contra hne
  refine hlarger 55 (Nat.le_refl 55) (by omega) ?_
  rw [BitVec.le_def]
  exact (thrTable_toNat p 55).le.trans h

/-- On the constant tables a stage finds the quotient of its remainder, 55 at most, and subtracts that multiple
(40_encode.md R67, R68, R69). -/
theorem stageDigit_eq_min {t : Tables} (ht : t.RomOk) (p : Fin 12) (rem : Word) :
    (stageDigit t p rem).1.toNat = min 55 (rem.toNat / 56 ^ p.val) ∧
    (stageDigit t p rem).2.toNat = min 55 (rem.toNat / 56 ^ p.val) * 56 ^ p.val := by
  have hpos : 0 < 56 ^ p.val := Nat.pow_pos (by decide)
  rcases Nat.lt_or_ge rem.toNat (56 ^ (p.val + 1)) with hrem | hrem
  · have hq : rem.toNat / 56 ^ p.val < 56 := Nat.div_lt_of_lt_mul hrem
    rw [Nat.min_eq_right (Nat.le_of_lt_succ hq)]
    exact stageDigit_spec ht p rem hrem
  · obtain ⟨-, -, hthr, -⟩ := ht
    have h55 : 55 * 56 ^ p.val ≤ rem.toNat := by rw [Nat.pow_succ] at hrem; omega
    have hp : p.val < 11 := by
      by_contra hp
      have : (56 : Nat) ^ 12 ≤ 56 ^ (p.val + 1) := Nat.pow_le_pow_right (by decide) (by omega)
      have := rem.isLt
      omega
    have hm := largestMultiplier_eq_last ⟨p.val, hp⟩ h55
    rw [Nat.min_eq_left ((Nat.le_div_iff_mul_le hpos).mpr h55), stageDigit, dif_pos hp]
    simp only [hthr]
    rw [thrTable_toNat ⟨p.val, hp⟩, hm]
    exact ⟨rfl, rfl⟩

theorem encodeStage_dig_self (t : Tables) (d : Datapath) (p : Fin 12) :
    (encodeStage t d p).dig[p.val] = (stageDigit t p d.rem).1 := by
  rw [encodeStage_dig, Vector.getElem_set_self]

/-- Which multipliers the digit of a stage reaches: those up to 55 whose product does not exceed the remainder. -/
theorem le_encodeStage_dig_iff {t : Tables} (ht : t.RomOk) (d : Datapath) (p : Fin 12) (k : Nat) :
    k ≤ (encodeStage t d p).dig[p.val].toNat ↔ k ≤ 55 ∧ k * 56 ^ p.val ≤ d.rem.toNat := by
  rw [encodeStage_dig_self, (stageDigit_eq_min ht p d.rem).1, Nat.le_min, Nat.le_div_iff_mul_le (Nat.pow_pos (by decide))]

/-- At position 11 these are all the numbers whose product does not exceed the remainder (40_encode.md R68). -/
theorem le_encodeStage_dig_eleven_iff {t : Tables} (ht : t.RomOk) (d : Datapath) (k : Nat) :
    k ≤ (encodeStage t d 11).dig[11].toNat ↔ k * 56 ^ 11 ≤ d.rem.toNat := by
  refine (le_encodeStage_dig_iff ht d 11 k).trans (and_iff_right_of_imp fun h => ?_)
  have h : k * 56 ^ 11 ≤ d.rem.toNat := h
  have := d.rem.isLt
  omega

/-- Settles O24: the multipliers above the digit are those that the digit does not reach. -/
theorem stageTakesLargestMultiplier : Obligations.StageTakesLargestMultiplier := by
  unfold Obligations.StageTakesLargestMultiplier
  intro t d p ht hp m
  have hm := le_encodeStage_dig_iff ht d p
  obtain ⟨h55, hle⟩ := (hm m).mp (Nat.le_refl m)
  exact ⟨h55, hle, fun k hmk hk => Nat.lt_of_not_ge fun hle => Nat.not_le.mpr hmk ((hm k).mpr ⟨hk, hle⟩)⟩

/-- Counting the numbers below `n` that are below `m`. -/
theorem length_filter_range_lt (m n : Nat) : ((List.range n).filter fun k => decide (k < m)).length = min m n := by
  induction n with
  | zero => simp
  | succ n ih =>
    rw [List.range_succ, List.filter_append, List.length_append, ih]
    by_cases h : n < m <;> simp [h] <;> omega

/-- Settles O26: the comparisons that are true are those of the multipliers up to the digit. -/
theorem stageDigitCountsComparisons : Obligations.StageDigitCountsComparisons := by
  unfold Obligations.StageDigitCountsComparisons
  intro t d p ht m
  have hm := le_encodeStage_dig_iff ht d p
  have hiff : ∀ k, k ≤ 55 → (k * 56 ^ p.val ≤ d.rem.toNat ↔ k ≤ m) := fun k hk => by rw [hm]; simp [hk]
  refine ⟨fun hp => ⟨?_, fun k _ => hiff k⟩, fun hp k => ?_⟩
  · obtain ⟨h55, -⟩ := (hm m).mp (Nat.le_refl m)
    have hfilter : ∀ k ∈ List.range 55, decide ((k + 1) * 56 ^ p.val ≤ d.rem.toNat) = decide (k < m) := fun k hk =>
      decide_eq_decide.mpr (hiff (k + 1) (List.mem_range.mp hk))
    rw [List.filter_congr hfilter, length_filter_range_lt, Nat.min_eq_left h55]
  · obtain rfl : p = 11 := Fin.ext hp
    exact (le_encodeStage_dig_eleven_iff ht d k).symm

/-- Settles O25: the digit reaches 1 exactly when the comparison is true, and never 2. -/
theorem topStageIsBinary : Obligations.TopStageIsBinary := by
  unfold Obligations.TopStageIsBinary
  intro t d ht
  have h1 := le_encodeStage_dig_eleven_iff ht d 1
  have h2 := le_encodeStage_dig_eleven_iff ht d 2
  have hrem := d.rem.isLt
  refine ⟨fun h => BitVec.eq_of_toNat_eq ?_, fun h => BitVec.eq_of_toNat_eq ?_⟩
  · rw [BitVec.toNat_ofNat]
    omega
  · rw [BitVec.toNat_ofNat]
    omega

/-- Settles O27: the digit's threshold is one of those that the digit reaches, so it does not exceed the remainder. -/
theorem remainderUpdateNeverBorrows : Obligations.RemainderUpdateNeverBorrows := by
  unfold Obligations.RemainderUpdateNeverBorrows
  intro t d p ht m
  obtain ⟨hdig, hthr⟩ := stageDigit_eq_min ht p d.rem
  obtain ⟨-, hle⟩ := (le_encodeStage_dig_iff ht d p m).mp (Nat.le_refl m)
  have hsub : (stageDigit t p d.rem).2.toNat = m * 56 ^ p.val := by
    rw [hthr, ← hdig, ← encodeStage_dig_self]
  refine ⟨hle, ?_, fun q hq => ?_, rfl, rfl, rfl, rfl⟩
  · rw [encodeStage_rem, BitVec.toNat_sub_of_le (by rw [BitVec.le_def, hsub]; exact hle), hsub]
  · rw [encodeStage_dig, Vector.getElem_set_ne _ _ (fun e => hq (Fin.ext e.symm))]

/-- Twelve digits weigh to a value exactly when they are its base-56 digits (40_encode.md R70(b)). -/
theorem weightedDigits_eq_iff {f : Fin 12 → Nat} (hf : ∀ p, f p ≤ 55) {v : Nat} (hv : v < 56 ^ 12) :
    ((List.finRange 12).map fun p => f p * 56 ^ p.val).sum = v ↔ ∀ p, f p = Reference.digit v p.val := by
  obtain ⟨g, rfl⟩ : ∃ g : Fin 12 → Fin 56, f = fun p => (g p).val :=
    ⟨fun p => ⟨f p, Nat.lt_succ_of_le (hf p)⟩, rfl⟩
  calc _ ↔ finFunctionFinEquiv g = ⟨v, hv⟩ := by rw [← Fin.sum_univ_def, Fin.ext_iff, finFunctionFinEquiv_apply]
    _ ↔ g = finFunctionFinEquiv.symm ⟨v, hv⟩ := (Equiv.eq_symm_apply _).symm
    _ ↔ ∀ p, (g p).val = Reference.digit v p.val := by
      simp only [funext_iff, Fin.ext_iff, finFunctionFinEquiv_symm_apply_val]
      rfl

/-- The stages of the positions below `n`, begun with a remainder below `56^n`, leave none of it (40_encode.md R70(c)). -/
theorem encodeStages_rem {t : Tables} (ht : t.RomOk) :
    ∀ (n : Nat), n ≤ 12 → ∀ d : Datapath, d.rem.toNat < 56 ^ n →
      ((positions.drop (12 - n)).foldl (encodeStage t) d).rem = 0#64
  | 0, _, d, hd => BitVec.eq_of_toNat_eq (Nat.lt_one_iff.mp hd)
  | n + 1, hn, d, hd => by
    have hrem : (encodeStage t d ⟨n, hn⟩).rem.toNat = d.rem.toNat % 56 ^ n := encodeStage_rem_spec ht ⟨n, hn⟩ d hd
    rw [show 12 - (n + 1) = 11 - n by omega, positions_drop ⟨n, hn⟩, List.foldl_cons]
    exact encodeStages_rem ht n (by omega) _ (hrem ▸ Nat.mod_lt _ (Nat.pow_pos (by decide)))

/-- The top digit of a 64-bit value (40_encode.md R70(e)). -/
theorem digit_eleven (v : Word) : Reference.digit v.toNat 11 = if 56 ^ 11 ≤ v.toNat then 1 else 0 := by
  have := v.isLt
  rw [Reference.digit]
  split <;> omega

/-- Settles O28: the digits are those of the value, which weigh to it and are alone in doing so. -/
theorem pipelineComputesBase56Digits : Obligations.PipelineComputesBase56Digits := by
  unfold Obligations.PipelineComputesBase56Digits
  intro t v d ht e
  have hdig : ∀ p : Fin 12, e.dig[p.val].toNat = Reference.digit v.toNat p.val := encodePipeline_dig ht v d
  have hv := Reference.word_lt_pow v
  have hle : ∀ p : Fin 12, e.dig[p.val].toNat ≤ 55 := fun p => hdig p ▸ Nat.le_of_lt_succ (Reference.digit_lt _ _)
  refine ⟨hdig, encodeStages_rem ht 12 (Nat.le_refl 12) { d with rem := v } hv, (hdig 11).trans (digit_eleven v),
    (weightedDigits_eq_iff hle hv).mpr hdig, fun f hf hsum p => ?_⟩
  rw [hdig, (weightedDigits_eq_iff hf hv).mp hsum]

end Sys2Proof.Machine

/-! ## The unpadded string, and the answers of `ENC` -/

namespace Sys2Proof.Machine

/-- Of zero symbols alone the strip rule leaves one (40_encode.md R75). -/
theorem strip_replicate {z : Nat} (hz : 0 < z) : strip (List.replicate z Config.zeroSym) = [Config.zeroSym] := by
  rw [strip, leadingZeros_replicate, List.length_replicate, if_pos rfl, List.drop_replicate, Nat.sub_sub_self hz]
  rfl

/-- The first symbol that is not zero ends what the strip rule takes off (40_encode.md R75). -/
theorem strip_replicate_append_cons (z : Nat) {c : Byte} (hc : c ≠ Config.zeroSym) (cs : List Byte) :
    strip (List.replicate z Config.zeroSym ++ c :: cs) = c :: cs := by
  rw [strip, leadingZeros_append z c cs hc, if_neg (by simp), List.drop_left' List.length_replicate]

end Sys2Proof.Machine

namespace Sys2Proof.Reference

open Machine

theorem unpaddedString_length (a : Config.Alphabet) {v : Nat} (hv : v < 56 ^ 12) :
    (unpaddedString a v).length = Nat.log 56 v + 1 := by
  have hlog : Nat.log 56 v < 12 := Nat.log_lt_of_lt_pow' (by decide) hv
  rw [unpaddedString, List.length_drop, paddedString_length, symbolsNeeded_eq_log hv]
  omega

/-- The unpadded string begins with the symbol of the value's leading digit. -/
theorem unpaddedString_eq_cons (a : Config.Alphabet) {v : Nat} (hv : v < 56 ^ 12) :
    ∃ str, unpaddedString a v = a[digit v (Nat.log 56 v)]'(digit_lt _ _) :: str := by
  have hlog : Nat.log 56 v < 12 := Nat.log_lt_of_lt_pow' (by decide) hv
  rw [unpaddedString, symbolsNeeded_eq_log hv, List.drop_eq_getElem_cons (by simp; omega), paddedString_getElem]
  simp only [show 11 - (12 - (Nat.log 56 v + 1)) = Nat.log 56 v by omega]
  exact ⟨_, rfl⟩

theorem digit_log_eq_zero_iff (v : Nat) : digit v (Nat.log 56 v) = 0 ↔ v = 0 :=
  ⟨fun h => by_contra fun hne => digit_log_ne_zero hne h, by rintro rfl; rfl⟩

/-- The unpadded string of 0 is the single zero symbol (40_encode.md R74). -/
theorem unpaddedString_zero {a : Config.Alphabet} (ha : a.Admissible) : unpaddedString a 0 = [Config.zeroSym] := by
  rw [← strip_paddedString ha (by decide), paddedString_zero ha, strip_replicate (by decide)]

end Sys2Proof.Reference

namespace Sys2Proof.Machine

/-- Settles O29: the answer is the reference string, whose length is the logarithm of the value to the base 56 and one. -/
theorem encAnswersBase56String : Obligations.EncAnswersBase56String := by
  unfold Obligations.EncAnswersBase56String
  refine ⟨fun s pad v hs hr => exec_enc hs hr pad v, ?_⟩
  intro a v l
  have hl : l = Nat.log 56 v.toNat + 1 := Reference.unpaddedString_length a (Reference.word_lt_pow v)
  rw [hl]
  refine ⟨Nat.le_add_left 1 _, Nat.lt_pow_succ_log_self (by decide) _, fun n hn hnl => ?_⟩
  refine Nat.pow_le_of_le_log (fun h0 => ?_) (Nat.le_of_lt_succ hnl)
  rw [h0, Nat.log_zero_right] at hnl
  omega

/-- Settles O30: the two strings of 0. -/
theorem encOfZero : Obligations.EncOfZero := by
  unfold Obligations.EncOfZero
  intro s hs hr
  have ⟨⟨ha, _⟩, _⟩ := hs
  rw [← Reference.unpaddedString_zero ha, ← Reference.paddedString_zero ha]
  exact ⟨exec_enc hs hr false 0#64, exec_enc hs hr true 0#64⟩

/-- Settles O31, by what follows the leading zero symbols: nothing, or another symbol. -/
theorem stripLeavesOneSymbol : Obligations.StripLeavesOneSymbol := by
  unfold Obligations.StripLeavesOneSymbol
  refine ⟨fun z rest hlen hz => ?_, fun s v hs hr => ?_⟩
  · cases rest with
    | nil =>
      obtain rfl : z = 12 := hlen
      rw [List.append_nil, strip_replicate (by decide)]
      exact ⟨rfl, rfl⟩
    | cons c cs =>
      have hc : c ≠ Config.zeroSym := fun h => hz (congrArg some h)
      rw [List.length_cons] at hlen
      rw [strip_replicate_append_cons z hc, if_neg (by omega), List.length_cons]
      exact ⟨rfl, by omega⟩
  · have ⟨⟨ha, _⟩, _⟩ := hs
    refine ⟨_, Reference.paddedString_length _ _, exec_enc hs hr true v, ?_⟩
    rw [Reference.strip_paddedString ha (Reference.word_lt_pow v)]
    exact exec_enc hs hr false v

/-- Settles O32: the first symbol of the unpadded string is that of the leading digit, which is 0 for the value 0 alone. -/
theorem paddingInvariant : Obligations.PaddingInvariant := by
  unfold Obligations.PaddingInvariant
  intro s t v hs hr
  have ⟨⟨ha, _⟩, _⟩ := hs
  have hv := Reference.word_lt_pow v
  refine ⟨fun h => ?_, fun h => ?_⟩
  · obtain rfl := Host.Outcome.next.inj ((exec_enc hs hr true v).symm.trans h)
    exact ⟨_, rfl, Reference.paddedString_length _ _⟩
  · obtain rfl := Host.Outcome.next.inj ((exec_enc hs hr false v).symm.trans h)
    obtain ⟨str, hstr⟩ := Reference.unpaddedString_eq_cons s.tables.sym hv
    refine ⟨_, str, congrArg (s.responses ++ [Response.okString ·]) hstr, ?_, ?_⟩
    · rw [symbol_eq_zeroSym ha, Reference.digit_log_eq_zero_iff, ← BitVec.toNat_inj, BitVec.toNat_zero]
    · rintro rfl
      exact (List.cons.inj (hstr.symm.trans (Reference.unpaddedString_zero ha))).2

/-! ## `ENC` and `ENCP` whatever the tables hold -/

theorem emitSymbols_length (t : Tables) (dig : Vector Digit 12) :
    ∀ (ps : List (Fin 12)) (cs : List Byte), emitSymbols t dig ps = some cs → cs.length = ps.length
  | [], _, h => by obtain rfl := Option.some.inj h; rfl
  | p :: ps, cs, h => by
    rw [emitSymbols] at h
    split at h
    case h_1 c cs' _ hcs =>
      obtain rfl := Option.some.inj h
      rw [List.length_cons, emitSymbols_length t dig ps cs' hcs, List.length_cons]
    case h_2 => cases h

/-- The encode path has twelve symbols for every value, so a transaction that encodes completes (40_encode.md R76). -/
theorem answerEncoded_completes (s : State) (v : Word) (f : List Byte → List Byte) :
    ∃ s12, s12.length = 12 ∧ s.answerEncoded v f = .next (s.complete (.okString (f s12))) := by
  obtain ⟨s12, hs12⟩ := encodePadded_eq_some s.tables v
  exact ⟨s12, emitSymbols_length _ _ _ _ (hs12 s.dp), answerEncoded_of_some (hs12 s.dp) f⟩

/-- All an `ENCP` can do in a ready state: it encodes, or it is refused for the length of its prefix or for a delimiter there
(20_memory.md R36, 40_encode.md R80). -/
theorem exec_encp_cases {s : State} (hr : s.ready = true) (pad : Bool) (v : Word) (pfx : List Byte) :
    ((s.caps.admitsPrefix pfx.length = true ∧ Config.delim ∉ pfx) ∧
      exec (.encp pad v pfx) s = s.answerEncoded v fun s12 => pfx ++ [Config.delim] ++ s12) ∨
    (s.caps.admitsPrefix pfx.length = false ∧ exec (.encp pad v pfx) s = .refused .stringTooLong) ∨
    ((s.caps.admitsPrefix pfx.length = true ∧ Config.delim ∈ pfx) ∧
      exec (.encp pad v pfx) s = .refused .delimiterInPrefix) := by
  rw [exec, execEncp, whenReady_of_ready hr]
  cases hlen : s.caps.admitsPrefix pfx.length with
  | false => simp
  | true => by_cases hdelim : Config.delim ∈ pfx <;> simp [hdelim]

/-- Settles O33: twelve symbols are there whatever the tables hold, and the strip rule adds none. -/
theorem encodeNeverFails : Obligations.EncodeNeverFails := by
  unfold Obligations.EncodeNeverFails
  intro s hr
  refine ⟨fun pad v => ?_, fun pad v pfx hwf => ?_⟩
  · obtain ⟨s12, hlen, h⟩ := answerEncoded_completes s v fun s12 => if pad then s12 else strip s12
    refine ⟨_, (whenReady_of_ready hr _).trans h, ?_, rfl⟩
    cases pad with
    | false => exact (strip_length_le s12).trans hlen.le
    | true => exact hlen.le
  · obtain ⟨hpfx, hdelim⟩ := (encp_wellFormed_iff s.caps pad v pfx).mp hwf
    obtain ⟨s12, -, h⟩ := answerEncoded_completes s v fun s12 => pfx ++ [Config.delim] ++ s12
    obtain ⟨-, hexec⟩ | ⟨hlong, -⟩ | ⟨⟨-, hmem⟩, -⟩ := exec_encp_cases hr pad v pfx
    · exact ⟨_, hexec.trans h, rfl⟩
    · exact absurd (hpfx.symm.trans hlong) Bool.noConfusion
    · exact absurd hmem hdelim

/-- Settles O35, by the cases of `ENCP`: with a delimiter in its prefix it does not encode. -/
theorem encpRefusesDelimiter : Obligations.EncpRefusesDelimiter := by
  unfold Obligations.EncpRefusesDelimiter
  intro s pad v pfx hr hmem
  obtain ⟨⟨-, hdelim⟩, -⟩ | ⟨hlong, hexec⟩ | ⟨-, hexec⟩ := exec_encp_cases hr pad v pfx
  · exact absurd hmem hdelim
  · exact ⟨_, hexec, fun hpfx => absurd (hpfx.symm.trans hlong) Bool.noConfusion⟩
  · exact ⟨_, hexec, fun _ => rfl⟩

/-- Settles O34: without a delimiter both transactions complete with their reference answers; with one, by O35. -/
theorem encpAnswersPrefixedString : Obligations.EncpAnswersPrefixedString := by
  unfold Obligations.EncpAnswersPrefixedString
  intro s pad v pfx hs hr hpfx
  refine ⟨fun hdelim => ⟨_, exec_enc hs hr true v, ?_, ?_⟩, fun hmem => ?_⟩
  · rw [exec_encp hs hr hpfx hdelim, List.append_assoc, List.singleton_append]
    rfl
  · simp [Reference.encodedString]
  · obtain ⟨q, hexec, hq⟩ := encpRefusesDelimiter s pad v pfx hr hmem
    rw [hexec, hq hpfx]

/-- Settles O36: an `ENCP` that completes was not refused, and then it answers what O34 says. -/
theorem encpIgnoresPad : Obligations.EncpIgnoresPad := by
  unfold Obligations.EncpIgnoresPad
  refine fun s v pfx => ⟨rfl, fun hs hr t pad h => ?_⟩
  obtain ⟨⟨hpfx, hdelim⟩, -⟩ | ⟨-, hexec⟩ | ⟨-, hexec⟩ := exec_encp_cases hr pad v pfx
  · obtain ⟨hexec, -⟩ := encpAnswersPrefixedString s pad v pfx hs hr hpfx
    obtain ⟨s12, henc, hencp, hlen⟩ := hexec hdelim
    refine ⟨s12, ?_, henc, Host.Outcome.next.inj (h.symm.trans hencp)⟩
    simpa using hlen
  · cases hexec.symm.trans h
  · cases hexec.symm.trans h

end Sys2Proof.Machine

/-! ## The exact value of a string determines it at its length, and the answers of the decode path -/

namespace Sys2Proof.Reference

open Machine

/-- A non-empty string that has a value begins with the symbol of some digit, which weighs what its place says, and the
rest has a value (41_decode.md R94). -/
theorem exists_digit_of_value_cons {a : Config.Alphabet} {c : Byte} {cs : List Byte} {n : Nat}
    (h : value a (c :: cs) = some n) :
    ∃ (d : Fin 56) (m : Nat), a[d.val] = c ∧ value a cs = some m ∧ d.val * 56 ^ cs.length + m = n := by
  rw [value] at h
  split at h
  case h_1 d m hc hcs =>
    obtain ⟨hd, hget, -⟩ := List.idxOf?_eq_some_iff.mp hc
    exact ⟨⟨d, by simpa using hd⟩, m, by simpa using hget, hcs, Option.some.inj h⟩
  case h_2 => cases h

theorem value_lt_pow {a : Config.Alphabet} :
    ∀ {s : List Byte} {n : Nat}, value a s = some n → n < 56 ^ s.length
  | [], n, h => by
    obtain rfl := Option.some.inj h
    exact Nat.one_pos
  | c :: cs, n, h => by
    obtain ⟨d, m, -, hcs, rfl⟩ := exists_digit_of_value_cons h
    have hm := value_lt_pow hcs
    have hd : d.val * 56 ^ cs.length ≤ 55 * 56 ^ cs.length := Nat.mul_le_mul_right _ (Nat.le_of_lt_succ d.isLt)
    rw [List.length_cons, Nat.pow_succ]
    omega

/-- Two strings of one length with the same value are equal: the digits of a value are unique (41_decode.md R99). -/
theorem eq_of_value_eq {a : Config.Alphabet} :
    ∀ {x y : List Byte} {n : Nat}, x.length = y.length → value a x = some n → value a y = some n → x = y
  | [], y, _, hlen, _, _ => (List.length_eq_zero_iff.mp hlen.symm).symm
  | b :: x, [], _, hlen, _, _ => by cases hlen
  | b :: x, c :: y, n, hlen, hx, hy => by
    have hxy : x.length = y.length := Nat.succ.inj hlen
    obtain ⟨d, m, rfl, hm, rfl⟩ := exists_digit_of_value_cons hx
    obtain ⟨e, k, rfl, hk, heq⟩ := exists_digit_of_value_cons hy
    have hmlt : m < 56 ^ y.length := hxy ▸ value_lt_pow hm
    have hklt := value_lt_pow hk
    rw [hxy] at heq
    have hpos : 0 < 56 ^ y.length := Nat.pow_pos (by decide)
    have hdiv : ∀ i j, j < 56 ^ y.length → (i * 56 ^ y.length + j) / 56 ^ y.length = i := fun i j hj => by
      rw [Nat.mul_comm, Nat.mul_add_div hpos, Nat.div_eq_of_lt hj, Nat.add_zero]
    obtain rfl : e = d := Fin.ext (by rw [← hdiv e k hklt, heq, hdiv d m hmlt])
    obtain rfl : k = m := Nat.add_left_cancel heq
    rw [eq_of_value_eq hxy hm hk]

/-- `DEC` answers a value exactly when it is the exact value of the string (41_decode.md R92). -/
theorem decodeAnswer_eq_okValue_iff {a : Config.Alphabet} {s : List Byte} {v : Word} :
    decodeAnswer a s = .okValue v ↔ value a s = some v.toNat := by
  refine ⟨fun h => ?_, decodeAnswer_of_value⟩
  unfold decodeAnswer at h
  split at h
  case h_1 => cases h
  case h_2 n hn =>
    split at h
    case isTrue hlt =>
      obtain rfl := Machine.Response.okValue.inj h
      rw [hn, BitVec.toNat_ofNat, Nat.mod_eq_of_lt hlt]
    case isFalse => cases h

theorem decodeAnswer_of_le {a : Config.Alphabet} {s : List Byte} {n : Nat} (h : value a s = some n) (hn : 2 ^ 64 ≤ n) :
    decodeAnswer a s = .err .overflow := by
  simp only [decodeAnswer, h, if_neg (Nat.not_lt.mpr hn)]

/-- A string of twelve symbols that decodes to a value is that value's padded string (41_decode.md R99). -/
theorem paddedString_of_decodeAnswer {a : Config.Alphabet} (ha : a.Admissible) {s : List Byte} {v : Word}
    (hlen : s.length = 12) (h : decodeAnswer a s = .okValue v) : paddedString a v.toNat = s := by
  have ⟨_, _, _, hdistinct, _⟩ := ha
  exact eq_of_value_eq (by simp [hlen]) (value_paddedString hdistinct (word_lt_pow v)) (decodeAnswer_eq_okValue_iff.mp h)

/-- A symbol other than "0" makes the value at least the weight of its place (41_decode.md R94). -/
theorem pow_le_value {a : Config.Alphabet} (ha : a.Admissible) {pre post : List Byte} {c : Byte} (hc : c ≠ Config.zeroSym)
    {n : Nat} (h : value a (pre ++ c :: post) = some n) : 56 ^ post.length ≤ n := by
  rw [value_append] at h
  split at h
  case h_1 m k _ hk =>
    obtain ⟨d, j, rfl, -, rfl⟩ := exists_digit_of_value_cons hk
    have hd : 1 ≤ d.val := Nat.one_le_iff_ne_zero.mpr fun h0 => hc ((symbol_eq_zeroSym ha d.val d.isLt).mpr h0)
    have hweight := Nat.mul_le_mul_right (56 ^ post.length) hd
    have hn := Option.some.inj h
    omega
  case h_2 => cases h

end Sys2Proof.Reference

namespace Sys2Proof.Machine

theorem positions_eq_reverse : positions = (List.finRange 12).reverse := by decide

/-- `ACC` after the loop, as the sum in the order of the positions' numbers (41_decode.md R88). -/
theorem accumulate_acc_toNat {t : Tables} (ht : t.RomOk) (d : Datapath) :
    (accumulate t d).acc.toNat = ((List.finRange 12).map fun p => d.dig[p.val].toNat * 56 ^ p.val).sum := by
  obtain ⟨-, hpow, -⟩ := ht
  rw [accumulate_spec hpow, positions_eq_reverse, List.map_reverse, List.sum_reverse]

/-- Digits of at most 55 below position `n` weigh less than `56^n` (41_decode.md R88). -/
theorem weightedDigits_lt_pow {n : Nat} {f : Fin n → Nat} (hf : ∀ p, f p ≤ 55) :
    ((List.finRange n).map fun p => f p * 56 ^ p.val).sum < 56 ^ n := by
  obtain ⟨g, rfl⟩ : ∃ g : Fin n → Fin 56, f = fun p => (g p).val :=
    ⟨fun p => ⟨f p, Nat.lt_succ_of_le (hf p)⟩, rfl⟩
  simpa only [finFunctionFinEquiv_apply, Fin.sum_univ_def] using (finFunctionFinEquiv g).isLt

/-- With a delimiter, `DECP` decodes what follows the first one, in any tables (41_decode.md R96). -/
theorem decodePrefixed_append (t : Tables) {pre : List Byte} (h : Config.delim ∉ pre) (rest : List Byte) {d : Datapath}
    (hd : d.error? = none) : decodePrefixed t (pre ++ Config.delim :: rest) d = decodeString t rest d := by
  simp [decodePrefixed, afterDelim_append pre rest h, Datapath.flagNoDelim, hd]

/-- Settles O60: the string's value determines it among the strings of twelve symbols. -/
theorem reencodingPaddedString : Obligations.ReencodingPaddedString := by
  unfold Obligations.ReencodingPaddedString
  intro s t str v hs hr hlen hexec hresp
  have ⟨⟨ha, _⟩, _, hcaps⟩ := hs
  rw [exec_dec hs hr (hlen ▸ hcaps)] at hexec
  obtain rfl := Host.Outcome.next.inj hexec
  have hanswer : Reference.decodeAnswer s.tables.sym str = .okValue v := by simpa using hresp
  rw [exec_enc (complete_inv hs _) hr true v, complete_tables, Reference.encodedString, if_pos rfl,
    Reference.paddedString_of_decodeAnswer ha hlen hanswer]

/-- Settles O37: the digit of position `11 - k` is that of the symbol at string index `k`. -/
theorem normaliseToTwelveSymbols : Obligations.NormaliseToTwelveSymbols := by
  unfold Obligations.NormaliseToTwelveSymbols
  intro s
  obtain ⟨hlen, happ⟩ := normalise_spec s
  refine ⟨fun h => if_pos h, fun h => ⟨?_, ?_⟩, hlen, fun t d k c hc => ?_⟩
  · rw [happ, show 12 - s.length = 0 by omega, List.replicate_zero, List.nil_append]
  · have := congrArg List.length happ
    rw [List.length_append, List.length_append, List.length_replicate] at this
    omega
  · obtain ⟨hk, rfl⟩ := List.getElem?_eq_some_iff.mp hc
    have hdig := loadDigits_dig t (normalise s).2 hlen d ⟨11 - k.val, by omega⟩
    simpa only [show 11 - (11 - k.val) = k.val by omega] using hdig

/-- Settles O38: no partial sum exceeds the whole one, which fits in 70 bits. -/
theorem accumulatorHoldsExactSum : Obligations.AccumulatorHoldsExactSum := by
  unfold Obligations.AccumulatorHoldsExactSum
  intro t d ht hdig
  have ⟨_, hpow, _⟩ := ht
  have hlt := weightedDigits_lt_pow hdig
  have hacc := accumulate_acc_toNat ht d
  refine ⟨fun n _ => ?_, hacc, hacc ▸ hlt⟩
  have hpart : ((positions.take n).map fun p => d.dig[p.val].toNat * 56 ^ p.val).sum ≤ (accumulate t d).acc.toNat := by
    rw [accumulate_spec hpow]
    exact ((List.take_sublist n positions).map _).sum_le_sum fun _ _ => Nat.zero_le _
  rw [accumulate_fold hpow _ { d with acc := 0#70 } (by simp only [BitVec.toNat_ofNat]; omega)]
  simp

/-- Settles O39: with the low eleven digits weighing less than `56^11`, the sum's size is seen at position 11. -/
theorem overflowSeenAtPositionEleven : Obligations.OverflowSeenAtPositionEleven := by
  unfold Obligations.OverflowSeenAtPositionEleven
  intro t d ht hdig
  have hbits := (accumulate t d).acc.isLt
  have hlow := weightedDigits_lt_pow fun p : Fin 11 => hdig p.castSucc
  have hsum := accumulate_acc_toNat ht d
  rw [← Fin.sum_univ_def, Fin.sum_univ_castSucc, Fin.sum_univ_def] at hsum
  simp only [Fin.val_castSucc, Fin.val_last] at hlow hsum
  rw [max64_lt_iff]
  refine ⟨?_, by omega⟩
  rw [Ne, ← BitVec.toNat_inj, BitVec.extractLsb'_toNat, BitVec.toNat_ofNat, Nat.shiftRight_eq_div_pow]
  omega

/-- Settles O40, by the reference answer of `DEC`. -/
theorem decAnswersExactValue : Obligations.DecAnswersExactValue := by
  unfold Obligations.DecAnswersExactValue
  exact fun _ _ hs hr hlen => exec_dec hs hr hlen

/-- Settles O41: the empty string has no symbol, and its value is 0. -/
theorem decOfEmptyIsZero : Obligations.DecOfEmptyIsZero := by
  unfold Obligations.DecOfEmptyIsZero
  intro s hs hr
  have ⟨_, _, hcaps⟩ := hs
  have hvalue : Reference.value s.tables.sym [] = some (0#64).toNat := rfl
  rw [exec_dec (str := []) hs hr (admitsInput_mono hcaps (Nat.zero_le 12)), Reference.decodeAnswer_of_value hvalue]

/-- Settles O42: both strings have the same value. -/
theorem leadingZerosMeanNothing : Obligations.LeadingZerosMeanNothing := by
  unfold Obligations.LeadingZerosMeanNothing
  intro s n str hs hr hlong hshort
  have ⟨⟨ha, _⟩, _⟩ := hs
  rw [exec_dec hs hr (by simpa using hlong), exec_dec hs hr hshort, Reference.decodeAnswer, Reference.decodeAnswer,
    Reference.value_replicate_zeroSym ha]

/-- Settles O43: the symbol's weight, `56^12` or more, exceeds `MAX64`. -/
theorem excessSymbolOverflows : Obligations.ExcessSymbolOverflows := by
  unfold Obligations.ExcessSymbolOverflows
  intro s pre c post hs hr hlen hpost hvalid hc
  have ⟨⟨ha, _⟩, _⟩ := hs
  obtain ⟨n, hn⟩ : ∃ n, Reference.value s.tables.sym (pre ++ c :: post) = some n := by
    rw [← Option.ne_none_iff_exists', Ne, Reference.value_eq_none_iff]
    exact fun ⟨b, hb, hmem⟩ => hmem (hvalid b hb)
  have hle : 2 ^ 64 ≤ n :=
    calc 2 ^ 64 ≤ 56 ^ 12 := by decide
      _ ≤ 56 ^ post.length := Nat.pow_le_pow_right (by decide) hpost
      _ ≤ n := Reference.pow_le_value ha hc hn
  rw [exec_dec hs hr hlen, Reference.decodeAnswer_of_le hn hle]

/-- Settles O44, by the reference answer of `DECP`. -/
theorem decpAnswersRemainder : Obligations.DecpAnswersRemainder := by
  unfold Obligations.DecpAnswersRemainder
  exact fun _ _ hs hr hlen => exec_decp hs hr hlen

/-- Settles O45: the decode begins after the first delimiter, with the flags as `DEC` finds them. -/
theorem decpDiscardsPrefix : Obligations.DecpDiscardsPrefix := by
  unfold Obligations.DecpDiscardsPrefix
  intro s pre rest hr hdelim hlong hshort
  simp only [exec, execDecp, execDec, whenReady_of_ready hr, answerDecoded_of_admits hlong, answerDecoded_of_admits hshort,
    decodePrefixed_append s.tables hdelim rest (clear_error s.dp)]

end Sys2Proof.Machine

/-! ## The errors of the reference answers, each by what raises it -/

namespace Sys2Proof.Reference

open Machine

/-- The errors of `DEC`, each with what raises it: a string without an exact value, or a value beyond 64 bits
(60_exceptions.md R102, R104). -/
theorem decodeAnswer_eq_err_iff {a : Config.Alphabet} {s : List Byte} {e : CodecError} :
    decodeAnswer a s = .err e ↔
      (e = .invalidSymbol ∧ value a s = none) ∨ (e = .overflow ∧ ∃ n, value a s = some n ∧ 2 ^ 64 ≤ n) := by
  cases h : value a s with
  | none => simp [decodeAnswer, h, eq_comm]
  | some n =>
    have hlarge : (∃ m, some n = some m ∧ 2 ^ 64 ≤ m) ↔ 2 ^ 64 ≤ n := by simp
    rw [hlarge]
    by_cases hn : n < 2 ^ 64
    · simp [decodeAnswer, h, if_pos hn, -Nat.reducePow, Nat.not_le.mpr hn]
    · simp [decodeAnswer_of_le h (Nat.le_of_not_lt hn), Nat.le_of_not_lt hn, eq_comm, -Nat.reducePow]

/-- The errors of `DECP`: MalformedInput without a delimiter, or an error of the remainder after the first one
(60_exceptions.md R103). -/
theorem decodePrefixedAnswer_eq_err_iff {a : Config.Alphabet} {s : List Byte} {e : CodecError} :
    decodePrefixedAnswer a s = .err e ↔
      (e = .malformedInput ∧ Config.delim ∉ s) ∨
      ∃ pre rest, s = pre ++ Config.delim :: rest ∧ Config.delim ∉ pre ∧ decodeAnswer a rest = .err e := by
  constructor
  · intro h
    by_cases hs : Config.delim ∈ s
    · obtain ⟨pre, rest, rfl, hpre⟩ := List.eq_append_cons_of_mem hs
      rw [decodePrefixedAnswer_append a hpre] at h
      exact .inr ⟨pre, rest, rfl, hpre, h⟩
    · rw [decodePrefixedAnswer_eq, (afterDelim_none_iff s).mpr hs] at h
      exact .inl ⟨(Response.err.inj h).symm, hs⟩
  · rintro (⟨rfl, hs⟩ | ⟨pre, rest, rfl, hpre, h⟩)
    · rw [decodePrefixedAnswer_eq, (afterDelim_none_iff s).mpr hs, Option.elim_none]
    · rw [decodePrefixedAnswer_append a hpre, h]

/-- Only `DECP` of a string without the delimiter is answered MalformedInput (60_exceptions.md R103). -/
theorem answer_eq_malformedInput_iff {a : Config.Alphabet} {i : Instr} :
    answer a i = .err .malformedInput ↔ ∃ str, i = .decp str ∧ Config.delim ∉ str := by
  cases i with
  | enc pad v => simp [answer]
  | encp pad v pfx => simp [answer]
  | dec str => simp [answer, decodeAnswer_eq_err_iff]
  | decp str => simp [answer, decodePrefixedAnswer_eq_err_iff, decodeAnswer_eq_err_iff]

end Sys2Proof.Reference

/-! ## Refusals: which requests have no meaning, and the reason given -/

namespace Sys2Proof.Machine

/-- All a decode operation can do in a ready state: it completes, or it is refused for the length of its string
(20_memory.md R36). -/
theorem exec_decode_cases {s : State} (hr : s.ready = true) {i : Instr} {str : List Byte}
    (hi : i = .dec str ∨ i = .decp str) :
    (s.caps.admitsInput str.length = true ∧ ∃ r, exec i s = .next (s.complete r)) ∨
    (s.caps.admitsInput str.length = false ∧ exec i s = .refused .stringTooLong) := by
  obtain ⟨r, hexec⟩ : ∃ r, exec i s = s.answerDecoded str.length r := by
    rcases hi with rfl | rfl <;> exact ⟨_, whenReady_of_ready hr _⟩
  rw [hexec]
  exact (answerDecoded_cases s str.length r).imp_left fun ⟨hlen, h⟩ => ⟨hlen, r, h⟩

/-- In a ready state an instruction completes if it is well formed for the capacities, and is refused otherwise, whatever the
tables hold (60_exceptions.md R113). -/
theorem exec_completes_or_refused {s : State} (hr : s.ready = true) (i : Instr) :
    (i.wellFormed s.caps = true ∧ ∃ r, exec i s = .next (s.complete r)) ∨
    (i.wellFormed s.caps = false ∧ ∃ q, exec i s = .refused q) := by
  cases i with
  | enc pad v =>
    obtain ⟨s12, -, h⟩ := answerEncoded_completes s v fun s12 => if pad then s12 else strip s12
    exact .inl ⟨rfl, _, (whenReady_of_ready hr _).trans h⟩
  | encp pad v pfx =>
    obtain ⟨hwf, hexec⟩ | ⟨hlong, hexec⟩ | ⟨⟨-, hdelim⟩, hexec⟩ := exec_encp_cases hr pad v pfx
    · obtain ⟨s12, -, h⟩ := answerEncoded_completes s v fun s12 => pfx ++ [Config.delim] ++ s12
      exact .inl ⟨(encp_wellFormed_iff s.caps pad v pfx).mpr hwf, _, hexec.trans h⟩
    · exact .inr ⟨by simp [Instr.wellFormed, hlong], _, hexec⟩
    · exact .inr ⟨by simp [Instr.wellFormed, hdelim], _, hexec⟩
  | dec str => exact (exec_decode_cases hr (.inl rfl)).imp_right fun ⟨hlen, h⟩ => ⟨hlen, _, h⟩
  | decp str => exact (exec_decode_cases hr (.inr rfl)).imp_right fun ⟨hlen, h⟩ => ⟨hlen, _, h⟩

/-- Which reasons 60_exceptions.md R113 gives against a decoded instruction under the capacities. -/
def ReasonApplies (c : Config.Caps) (i : Instr) : Refusal → Prop
  | .delimiterInPrefix => ∃ pad v pfx, i = .encp pad v pfx ∧ Config.delim ∈ pfx
  | .stringTooLong =>
    (∃ pad v pfx, i = .encp pad v pfx ∧ c.admitsPrefix pfx.length = false) ∨
    ∃ str, (i = .dec str ∨ i = .decp str) ∧ c.admitsInput str.length = false
  | .illegalHeader _ => False
  | .notModelled _ => False

/-- An execution that is refused gives a reason that applies to its instruction. -/
theorem exec_refused_reason {s : State} {i : Instr} {q : Refusal} (h : exec i s = .refused q) :
    ReasonApplies s.caps i q := by
  have hr : s.ready = true := Bool.eq_true_of_not_eq_false fun hr => by
    cases (exec_of_not_ready hr i).symm.trans h
  have hdecode : ∀ str, (i = .dec str ∨ i = .decp str) → ReasonApplies s.caps i q := fun str hi => by
    obtain ⟨-, r, hnext⟩ | ⟨hlong, hrefused⟩ := exec_decode_cases hr hi
    · cases hnext.symm.trans h
    · obtain rfl := Host.Outcome.refused.inj (hrefused.symm.trans h)
      exact .inr ⟨str, hi, hlong⟩
  cases i with
  | enc pad v =>
    obtain ⟨-, r, hnext⟩ | ⟨hwf, -⟩ := exec_completes_or_refused hr (.enc pad v)
    · cases hnext.symm.trans h
    · cases hwf
  | encp pad v pfx =>
    obtain ⟨hwf, -⟩ | ⟨hlong, hrefused⟩ | ⟨⟨-, hdelim⟩, hrefused⟩ := exec_encp_cases hr pad v pfx
    · obtain ⟨-, r, hnext⟩ | ⟨hnot, -⟩ := exec_completes_or_refused hr (.encp pad v pfx)
      · cases hnext.symm.trans h
      · cases ((encp_wellFormed_iff s.caps pad v pfx).mpr hwf).symm.trans hnot
    · obtain rfl := Host.Outcome.refused.inj (hrefused.symm.trans h)
      exact .inl ⟨pad, v, pfx, rfl, hlong⟩
    · obtain rfl := Host.Outcome.refused.inj (hrefused.symm.trans h)
      exact ⟨pad, v, pfx, rfl, hdelim⟩
  | dec str => exact hdecode str (.inl rfl)
  | decp str => exact hdecode str (.inr rfl)

/-- A step is refused exactly when it takes a request that has an illegal header or decodes to an instruction whose execution
is refused (60_exceptions.md R113). -/
theorem step_eq_refused_iff {s : State} {q : Refusal} :
    step s = .refused q ↔ s.ready = true ∧ ∃ r rest, s.pending = r :: rest ∧
      ((6 ≤ r.hdr.toNat ∧ q = .illegalHeader r.hdr) ∨ ∃ i, decode r = .ok i ∧ exec i s = .refused q) := by
  constructor
  · intro h
    cases hr : s.ready with
    | false => cases (step_of_not_ready hr).symm.trans h
    | true =>
      cases hp : s.pending with
      | nil => cases (step_of_idle hr hp).symm.trans h
      | cons r rest =>
        refine ⟨rfl, r, rest, rfl, ?_⟩
        by_cases hhdr : 6 ≤ r.hdr.toNat
        · rw [step_of_pending hr hp, takeRequest, decode_of_illegalHeader hhdr] at h
          exact .inl ⟨hhdr, (Host.Outcome.refused.inj h).symm⟩
        · obtain ⟨i, hi⟩ := decode_of_legalHeader (Nat.le_of_not_lt hhdr)
          exact .inr ⟨i, hi, (step_eq_exec hr hp hi).symm.trans h⟩
  · rintro ⟨hr, r, rest, hp, ⟨hhdr, rfl⟩ | ⟨i, hi, h⟩⟩
    · rw [step_of_pending hr hp, takeRequest, decode_of_illegalHeader hhdr]
    · exact (step_eq_exec hr hp hi).trans h

/-- In a ready state a refusal is the lot of the instructions that are not well formed for the capacities. -/
theorem exec_refused_iff {s : State} (hr : s.ready = true) (i : Instr) :
    (∃ q, exec i s = .refused q) ↔ i.wellFormed s.caps = false := by
  obtain ⟨hwf, r, h⟩ | ⟨hwf, h⟩ := exec_completes_or_refused hr i
  · simp [hwf, h]
  · exact iff_of_true h hwf

/-- The requests that decode to an instruction not well formed for the capacities (60_exceptions.md R113). -/
theorem decodes_illFormed_iff (c : Config.Caps) (r : Request) :
    (∃ i, decode r = .ok i ∧ i.wellFormed c = false) ↔
      (∃ pad v pfx, decode r = .ok (.encp pad v pfx) ∧ (c.admitsPrefix pfx.length = false ∨ Config.delim ∈ pfx)) ∨
      ∃ str, (decode r = .ok (.dec str) ∨ decode r = .ok (.decp str)) ∧ c.admitsInput str.length = false := by
  have hencp : ∀ pad v pfx, (Instr.encp pad v pfx).wellFormed c = false ↔
      c.admitsPrefix pfx.length = false ∨ Config.delim ∈ pfx := by
    simp [Instr.wellFormed, or_iff_not_imp_left]
  constructor
  · rintro ⟨i, hd, hi⟩
    cases i with
    | enc pad v => cases hi
    | encp pad v pfx => exact .inl ⟨pad, v, pfx, hd, (hencp pad v pfx).mp hi⟩
    | dec str => exact .inr ⟨str, .inl hd, hi⟩
    | decp str => exact .inr ⟨str, .inr hd, hi⟩
  · rintro (⟨pad, v, pfx, hd, hi⟩ | ⟨str, hd | hd, hi⟩)
    · exact ⟨_, hd, (hencp pad v pfx).mpr hi⟩
    · exact ⟨_, hd, hi⟩
    · exact ⟨_, hd, hi⟩

/-- Which steps are refused, by the request that the step takes: its header and what it decodes to (60_exceptions.md R113). -/
theorem step_refuses_iff (s : State) :
    (∃ q, step s = .refused q) ↔ s.ready = true ∧ ∃ r rest, s.pending = r :: rest ∧
      (6 ≤ r.hdr.toNat ∨ ∃ i, decode r = .ok i ∧ i.wellFormed s.caps = false) := by
  constructor
  · rintro ⟨q, h⟩
    obtain ⟨hr, r, rest, hp, ⟨hhdr, -⟩ | ⟨i, hd, h⟩⟩ := step_eq_refused_iff.mp h
    · exact ⟨hr, r, rest, hp, .inl hhdr⟩
    · exact ⟨hr, r, rest, hp, .inr ⟨i, hd, (exec_refused_iff hr i).mp ⟨q, h⟩⟩⟩
  · rintro ⟨hr, r, rest, hp, hhdr | ⟨i, hd, hwf⟩⟩
    · exact ⟨_, step_eq_refused_iff.mpr ⟨hr, r, rest, hp, .inl ⟨hhdr, rfl⟩⟩⟩
    · obtain ⟨q, h⟩ := (exec_refused_iff hr i).mpr hwf
      exact ⟨q, step_eq_refused_iff.mpr ⟨hr, r, rest, hp, .inr ⟨i, hd, h⟩⟩⟩

/-- A step whose reason is not the header's gives one that applies to the instruction it decoded. -/
theorem step_refused_reason {s : State} {q : Refusal} (hq : ∀ h, q ≠ .illegalHeader h) (h : step s = .refused q) :
    ∃ r rest i, s.pending = r :: rest ∧ decode r = .ok i ∧ ReasonApplies s.caps i q := by
  obtain ⟨-, r, rest, hp, ⟨-, rfl⟩ | ⟨i, hd, h⟩⟩ := step_eq_refused_iff.mp h
  · exact absurd rfl (hq r.hdr)
  · exact ⟨r, rest, i, hp, hd, exec_refused_reason h⟩

/-- Settles O52: a step is refused for the header of the request it takes or for the instruction decoded, and the reason then
given applies. -/
theorem stepRefusesExactly : Obligations.StepRefusesExactly := by
  unfold Obligations.StepRefusesExactly
  refine fun s => ⟨?_, fun b h => ?_, fun h => ?_, fun h => ?_⟩
  · simp only [step_refuses_iff, decodes_illFormed_iff]
  · obtain ⟨-, r, rest, hp, ⟨hhdr, hb⟩ | ⟨i, -, h⟩⟩ := step_eq_refused_iff.mp h
    · obtain rfl := Refusal.illegalHeader.inj hb
      exact ⟨r, rest, hp, rfl, hhdr⟩
    · exact (exec_refused_reason h).elim
  · obtain ⟨r, rest, _, hp, hd, pad, v, pfx, rfl, hdelim⟩ := step_refused_reason (by simp) h
    exact ⟨r, rest, pad, v, pfx, hp, hd, hdelim⟩
  · obtain ⟨r, rest, i, hp, hd, ⟨pad, v, pfx, rfl, hlong⟩ | ⟨str, rfl | rfl, hlong⟩⟩ :=
      step_refused_reason (by simp) h
    · exact ⟨r, rest, hp, .inl ⟨pad, v, pfx, hd, hlong⟩⟩
    · exact ⟨r, rest, hp, .inr ⟨str, .inl hd, hlong⟩⟩
    · exact ⟨r, rest, hp, .inr ⟨str, .inr hd, hlong⟩⟩

end Sys2Proof.Machine

/-! ## The errors of whole transactions -/

namespace Sys2Proof.Machine

/-- In a ready state of the invariant an execution that answers a next state completes with the reference answer
(20_memory.md R43). -/
theorem exec_next_answer {s t : State} {i : Instr} (hs : s.Inv) (hr : s.ready = true) (h : exec i s = .next t) :
    t = s.complete (Reference.answer s.tables.sym i) := by
  obtain ⟨hwf, -⟩ | ⟨-, q, hq⟩ := exec_completes_or_refused hr i
  · exact Host.Outcome.next.inj (h.symm.trans (exec_eq_complete_answer hs hr hwf))
  · cases h.symm.trans hq

/-- The response that such an execution delivers is the reference answer. -/
theorem exec_next_response_iff {s t : State} {i : Instr} (hs : s.Inv) (hr : s.ready = true) (h : exec i s = .next t)
    (r : Response) : t.responses = s.responses ++ [r] ↔ Reference.answer s.tables.sym i = r := by
  rw [exec_next_answer hs hr h, complete_responses, List.append_cancel_left_eq, List.singleton_inj]

/-- `VAL` has an invalid entry for some byte exactly of the strings without an exact value (60_exceptions.md R102). -/
theorem exists_invalid_iff {s : State} (hs : s.Inv) (hr : s.ready = true) (str : List Byte) :
    (∃ c ∈ str, entryValid (s.tables.readVal c) = false) ↔ Reference.value s.tables.sym str = none := by
  obtain ⟨⟨⟨-, -, -, hdistinct, -⟩, -⟩, hval, -⟩ := hs
  simp [← any_invalid_iff_value_none hdistinct (hval hr)]

/-- Settles O48: a string is answered InvalidSymbol exactly when it has no value, hence an invalid byte. -/
theorem invalidSymbolRaised : Obligations.InvalidSymbolRaised := by
  unfold Obligations.InvalidSymbolRaised
  intro s t str hs hr
  simp only [exists_invalid_iff hs hr]
  refine ⟨fun h => ?_, fun h => ?_⟩
  · simp [exec_next_response_iff hs hr h, Reference.answer, Reference.decodeAnswer_eq_err_iff]
  · simp [exec_next_response_iff hs hr h, Reference.answer, Reference.decodePrefixedAnswer_eq_err_iff,
      Reference.decodeAnswer_eq_err_iff]

/-- Settles O49, by the reference answer. -/
theorem malformedInputRaised : Obligations.MalformedInputRaised := by
  unfold Obligations.MalformedInputRaised
  intro s t i hs hr h
  rw [exec_next_response_iff hs hr h, Reference.answer_eq_malformedInput_iff]

/-- Settles O50: a string is answered Overflow exactly when it has a value and that takes more than 64 bits. -/
theorem overflowRaised : Obligations.OverflowRaised := by
  unfold Obligations.OverflowRaised
  intro s t str hs hr
  have hmax : ∀ n, 18446744073709551615 < n ↔ 2 ^ 64 ≤ n := fun n => by omega
  simp only [hmax]
  refine ⟨fun h => ?_, fun h => ?_⟩
  · simp [exec_next_response_iff hs hr h, Reference.answer, Reference.decodeAnswer_eq_err_iff]
  · simp [exec_next_response_iff hs hr h, Reference.answer, Reference.decodePrefixedAnswer_eq_err_iff,
      Reference.decodeAnswer_eq_err_iff]

/-- Settles O56: an error ends its transaction as any response does, so the next step takes the next request. -/
theorem errorLeavesBlockReady : Obligations.ErrorLeavesBlockReady := by
  unfold Obligations.ErrorLeavesBlockReady
  intro s t i e hs hr h hresp
  obtain rfl : t = s.complete (.err e) := by
    rw [exec_next_answer hs hr h, (exec_next_response_iff hs hr h _).mp hresp]
  refine ⟨rfl, hr, rfl, complete_inv hs _, fun q r rest j hp hd => ?_⟩
  exact step_eq_exec hr (by rw [complete_pending, hp, List.tail_cons]) hd

/-- The three errors have three codes (60_exceptions.md R101). -/
theorem code_injective : Function.Injective CodecError.code := by
  intro e e'
  cases e <;> cases e' <;> decide

/-- Settles O47: the status byte holds the error's code, and the codes differ. -/
theorem errorCarriesOnlyItsCode : Obligations.ErrorCarriesOnlyItsCode := by
  unfold Obligations.ErrorCarriesOnlyItsCode
  refine fun e => ⟨rfl, rfl, fun e' h => code_injective ?_⟩
  have hbits : ∀ r : Response, r.stat.extractLsb' 0 2 = r.errBits := fun r => (stat_fields r).2
  calc e.code = (Response.err e).stat.extractLsb' 0 2 := (hbits (.err e)).symm
    _ = (Response.err e').stat.extractLsb' 0 2 := by rw [h]
    _ = e'.code := hbits (.err e')

/-- Settles O51: the flags are asked in that order, and a string with a byte outside the alphabet has no value, whatever its
other symbols weigh. -/
theorem errorPriority : Obligations.ErrorPriority := by
  unfold Obligations.ErrorPriority
  refine ⟨fun d => ⟨fun hn => ?_, fun hn hi => ?_, fun hn hi ho => ?_, fun hn hi ho => ?_⟩, fun s c hs hr hc => ?_⟩
  · exact if_pos hn
  · simp [Datapath.error?, hn, hi]
  · simp [Datapath.error?, hn, hi, ho]
  · exact (error_none_iff d).mpr ⟨hn, hi, ho⟩
  · have ⟨_, _, hcaps⟩ := hs
    have hvalue : Reference.value s.tables.sym (s.tables.sym[2] :: List.replicate 10 Config.zeroSym ++ [c]) = none :=
      (Reference.value_eq_none_iff _ _).mpr ⟨c, by simp, hc⟩
    rw [exec_dec hs hr (by simpa using hcaps), Reference.decodeAnswer_eq_err_iff.mpr (.inl ⟨rfl, hvalue⟩)]

end Sys2Proof.Machine

/-! ## The agents, the placed word, and the run from reset to the first answer -/

namespace Sys2Proof.Machine

theorem enabled_initialiser_iff (s : State) : s.enabled .initialiser = true ↔ s.ready = false := by
  rw [State.enabled, Bool.not_eq_true']

theorem enabled_initialiser_eq_false_iff (s : State) : s.enabled .initialiser = false ↔ s.ready = true := by
  rw [State.enabled, Bool.not_eq_false']

theorem enabled_codec_iff (s : State) : s.enabled .codec = true ↔ s.ready = true ∧ s.pending ≠ [] := by
  simp [State.enabled]

/-- A placed request finds the initialiser's step done (70_reset_and_hazards.md R117). -/
theorem placeNext_ready (s : State) (q : Request) : (s.placeNext q).ready = true := by
  cases hr : s.ready <;> simp [State.placeNext, hr]

/-- A placed request stands before all those already pending, which the initialiser's step leaves. -/
theorem placeNext_pending (s : State) (q : Request) : (s.placeNext q).pending = q :: s.pending := by
  cases hr : s.ready <;> simp [State.placeNext, hr]

theorem decodeTableWord_eq_some_iff (nbits w : Nat) (i : Instr) :
    decodeTableWord nbits w = some i ↔ decode (requestOfBits nbits w) = .ok i := by
  unfold decodeTableWord
  cases decode (requestOfBits nbits w) <;> simp

theorem hostMove_takeResponse_of_cons {s : State} {r : Response} {rs : List Response} (h : s.responses = r :: rs) :
    s.hostMove .takeResponse = (.response r, { s with responses := rs }) := by
  simp only [State.hostMove, h]

theorem hostMove_takeResponse_of_nil {s : State} (h : s.responses = []) : s.hostMove .takeResponse = (.nothing, s) := by
  simp only [State.hostMove, h]

/-- In the invariant, a request pending while `READY = 0` is answered by the second step: the first is the initialiser's, the
second takes the request as usual (70_reset_and_hazards.md R119, R120). -/
theorem run_two_of_not_ready {s : State} {q : Request} {rest : List Request} {i : Instr} (hs : s.Inv) (hr : s.ready = false)
    (hp : s.pending = q :: rest) (hq : decode q = .ok i) (hi : i.wellFormed s.caps = true) :
    core.run 2 s = .next (s.initialise.complete (Reference.answer s.tables.sym i)) := by
  have hready := initialise_ready s
  have hexec : exec i s.initialise = .next (s.initialise.complete (Reference.answer s.tables.sym i)) := by
    rw [exec_eq_complete_answer (initialise_inv hs) hready (by rwa [initialise_caps]), initialise_sym]
  have hstep := (step_eq_exec hready ((initialise_pending s).trans hp) hq).trans hexec
  rw [run_succ_of_next 1 (step_of_not_ready hr), run_succ_of_next 0 hstep]
  rfl

/-- Settles O8: the first reset and the host's leave the same tables, whose entries are exact. -/
theorem resetLeavesSpecifiedState : Obligations.ResetLeavesSpecifiedState := by
  unfold Obligations.ResetLeavesSpecifiedState
  intro a t h
  obtain ⟨hready, hpending, hresponses, htables⟩ :
      t.ready = false ∧ t.pending = [] ∧ t.responses = [] ∧ t.tables = Tables.reset a := by
    obtain ⟨c, rfl⟩ | ⟨s, rfl, rfl⟩ := h <;> exact ⟨rfl, rfl, rfl, rfl⟩
  rw [htables]
  exact ⟨hready, hpending, hresponses, rfl, powTable_toNat, thrTable_toNat, thrTopTable_toNat⟩

/-- Settles O10: the step is the initialiser's, which builds the inverse of `SYM` and leaves the rest. -/
theorem initialiserBuildsInverse : Obligations.InitialiserBuildsInverse := by
  unfold Obligations.InitialiserBuildsInverse
  intro s hr hdistinct
  have hready := initialise_ready s
  exact ⟨(enabled_initialiser_iff s).mpr hr, s.initialise, step_of_not_ready hr, hready, initialise_valInverse hdistinct,
    (enabled_initialiser_eq_false_iff s.initialise).mpr hready, initialise_sym s, initialise_pow s, initialise_thr s,
    initialise_thrTop s, initialise_caps s, initialise_pending s, initialise_responses s, initialise_dp s,
    initialise_draws s⟩

/-- Settles O12: with `READY = 1` no step writes a table, every step ends ready, and the host's other moves leave both. -/
theorem initialisationOncePerReset : Obligations.InitialisationOncePerReset := by
  unfold Obligations.InitialisationOncePerReset
  intro s hr
  refine ⟨(enabled_initialiser_eq_false_iff s).mpr hr, fun t h => ?_, fun m hm => ?_⟩
  · exact ⟨step_next_ready h, congrArg Tables.val (step_next_tables hr h)⟩
  · obtain ⟨htables, hready, -⟩ := hostMove_frame hm s
    exact ⟨hready.trans hr, congrArg Tables.val htables⟩

/-- Settles O17: the initialiser's step leaves the pending requests, and the state after it is ready to take the oldest. -/
theorem requestHeldUntilReady : Obligations.RequestHeldUntilReady := by
  unfold Obligations.RequestHeldUntilReady
  intro s hr
  have hready := initialise_ready s
  have hpending := initialise_pending s
  exact ⟨exec_of_not_ready hr, s.initialise, step_of_not_ready hr, hready, hpending, initialise_responses s,
    fun r rest i hp hd => step_eq_exec hready (hpending.trans hp) hd⟩

/-- Settles O19: the state after reset meets the invariant, and so does what the host's request makes of it. -/
theorem bootAnswersHeldRequest : Obligations.BootAnswersHeldRequest := by
  unfold Obligations.BootAnswersHeldRequest
  intro a c r i ha hc hd hi
  have hs := hostMovesKeepInvariant _ (.present r) (resetWith_inv ha hc)
  exact ⟨_, run_two_of_not_ready hs rfl rfl hd hi, rfl, rfl, rfl⟩

/-- Settles O6: `READY = 1` leaves the codec alone to step, and it takes the oldest request. -/
theorem stepRunsDecodedInstruction : Obligations.StepRunsDecodedInstruction := by
  unfold Obligations.StepRunsDecodedInstruction
  exact fun _ _ _ _ => step_eq_exec

/-- Settles O7: the word's request is placed as the oldest pending one of a ready state. -/
theorem placedWordRunsNext : Obligations.PlacedWordRunsNext := by
  unfold Obligations.PlacedWordRunsNext
  intro s nbits w i h
  have hready : (s.withFetchWord nbits w).ready = true := placeNext_ready s _
  exact ⟨hready, step_eq_exec hready (placeNext_pending s _) ((decodeTableWord_eq_some_iff nbits w i).mp h)⟩

/-- Settles O18: `READY` tells which agent can have a step, and with neither enabled nothing is pending. -/
theorem agentsTakeTurns : Obligations.AgentsTakeTurns := by
  unfold Obligations.AgentsTakeTurns
  intro s
  refine ⟨enabled_initialiser_iff s, enabled_codec_iff s, fun ⟨hinit, hcodec⟩ => ?_, fun hinit hcodec => ?_⟩
  · have hnot := (enabled_initialiser_iff s).mp hinit
    obtain ⟨hready, -⟩ := (enabled_codec_iff s).mp hcodec
    exact Bool.noConfusion (hready.symm.trans hnot)
  · have hready := (enabled_initialiser_eq_false_iff s).mp hinit
    by_cases hp : s.pending = []
    · exact step_of_idle hready hp
    · exact absurd ((enabled_codec_iff s).mpr ⟨hready, hp⟩) (Bool.eq_false_iff.mp hcodec)

/-- Settles O20, by the moves: only taking a response looks at the state, at whether one is delivered. -/
theorem hostMovesDoOnlyTheirPart : Obligations.HostMovesDoOnlyTheirPart := by
  unfold Obligations.HostMovesDoOnlyTheirPart
  exact fun s => ⟨fun _ => rfl, fun _ _ => hostMove_takeResponse_of_cons, hostMove_takeResponse_of_nil, rfl⟩

end Sys2Proof.Machine
